-- ==== Sys2Proof/Word.lean ====
section
/-! DEFINITION. The word types of the bus and of the command register (spec 20_memory.md R48, 30_encoding.md R70). -/

namespace Sys2Proof

/-- One 32-bit bus word, and one command word (R48, R70). -/
abbrev Word := BitVec 32

/-- One byte lane of a bus word (R54). -/
abbrev Byte := BitVec 8

end Sys2Proof
end

