-- ==== Sys2Proof/Config.lean ====
section
/-! DEFINITION. The open parameters of the engine, its fixed constants and its free values
(spec 00_scope.md R6 to R11, 92_eei_decisions.md section 1). -/

namespace Sys2Proof

/-- The two parameters the spec leaves OPEN and the engine carries: `W`, the operand width in bits
(R6), and `base`, the bus address of the 64 KiB window (R9).  The third parameter of R11, the
completion schedule, is the list of turns in the state.  Legal values: `Config.wf`. -/
structure Config where
  W    : Nat
  base : Nat
  deriving DecidableEq, Repr

/-- R7: the number of 32-bit words in one W-bit register window. -/
def Config.L (c : Config) : Nat := c.W / 32

/-- R8: the number of operand registers, fixed; `RegIdx` is `Fin 16` and the file `Vector XReg 16`. -/
abbrev nreg : Nat := 16

/-- R27: the value of ID, the ASCII characters "MONT". -/
def idValue : Word := 0x4D4F4E54#32

/-- R28: the VERSION field of PARAM. -/
def versionValue : Nat := 1

/-- R48: the size in bytes of the register window. -/
def windowSize : Nat := 0x10000

/-- R51: the size in bytes of the window of one W-bit register. -/
def bigWindow : Nat := 0x800

/-- R22, U2: what the `n`-th read of an operand register that is unspecified since reset returns,
as a pattern of the greatest legal width (R6); the read keeps the bits it needs.  No body: the spec
says any value, a fresh draw on each read.  Log entry 2. -/
opaque Config.freeValue : Nat → BitVec 16384

/-- The parameters `State.reset` is built with.  DESIGN CHOICE (log entry 1): W = 32, the width the
spec's own vectors use unless they say otherwise, and base address 0.  Nothing is stated of these values: statements
about reset are made for every `Config`. -/
def Config.chosen : Config := ⟨32, 0⟩

end Sys2Proof
end

