-- ==== Sys2Proof/Syntax.lean ====
section
/-! DEFINITION. The commands of the engine: the four rows of spec/opcode_table.json (30_encoding.md R73). -/

namespace Sys2Proof

/-- R72: a register field is an unsigned 4-bit index and every value names a register. -/
abbrev RegIdx := Fin 16

/-- R73, R78: the four commands.  MONTSQR (R83) is another spelling of MONTMUL and has no word of its own. -/
inductive Instr where
  /-- R106: construct a context from the modulus in X[rs1]. -/
  | ctxinit (rs1 : RegIdx)
  /-- R114: X[rd] receives X[rs1] in the Montgomery domain. -/
  | tomont (rd rs1 : RegIdx)
  /-- R118: X[rd] receives X[rs1] taken out of the Montgomery domain. -/
  | frommont (rd rs1 : RegIdx)
  /-- R128: X[rd] receives the Montgomery product of X[rs1] and X[rs2]. -/
  | montmul (rd rs1 rs2 : RegIdx)
  deriving DecidableEq, Repr

/-- R83: the one pseudo-instruction, `MONTSQR xD, xA`. -/
def Instr.montsqr (rd rs1 : RegIdx) : Instr := .montmul rd rs1 rs1

end Sys2Proof
end

