-- ==== Sys2Proof/WellFormed.lean ====
section
/-! DEFINITION. Which parameters and which commands are well formed (spec 00_scope.md R6, R9; 30_encoding.md R72).
Which command WORDS are legal (R75) is `legal` in Decode.lean. -/

namespace Sys2Proof

/-- R6, R9: `W` is a multiple of 32 with 32 <= W <= 16384, and the base address is a multiple of 0x10000. -/
def Config.wf (c : Config) : Bool :=
  decide (c.W % 32 = 0) && decide (32 ≤ c.W) && decide (c.W ≤ 16384) && decide (c.base % windowSize = 0)

/-- R72, R8: every register field value names a register and no field has another constraint, so a
command, as syntax, is well formed by its type: the check has nothing to refuse. -/
def Instr.wf : Instr → Bool
  | .ctxinit _ => true
  | .tomont _ _ => true
  | .frommont _ _ => true
  | .montmul _ _ _ => true

end Sys2Proof
end

