-- ==== Sys2Proof/Decode.lean ====
section
/-! DEFINITION. The decoder, total on all 2^32 command words, and the encoder (spec 30_encoding.md R70 to R79). -/

namespace Sys2Proof

/-- R12: `v[hi:lo]`, bits hi down to lo of v as an unsigned integer. -/
def bits (v : Word) (hi lo : Nat) : Nat := (v.toNat >>> lo) % 2 ^ (hi - lo + 1)

/-- R71: the opcode field OP. -/
def opField (v : Word) : Nat := bits v 3 0

/-- R71: the destination field RD. -/
def rdField (v : Word) : Nat := bits v 7 4

/-- R71: the first source field RS1. -/
def rs1Field (v : Word) : Nat := bits v 11 8

/-- R71: the second source field RS2. -/
def rs2Field (v : Word) : Nat := bits v 15 12

/-- R71: the reserved field RSV. -/
def rsvField (v : Word) : Nat := bits v 31 16

/-- R75: a command word is legal exactly when it matches one row of R74. -/
def legal (v : Word) : Bool :=
  decide (rsvField v = 0) &&
    ((decide (opField v = 1) && decide (rdField v = 0) && decide (rs2Field v = 0)) ||
     (decide (opField v = 2) && decide (rs2Field v = 0)) ||
     (decide (opField v = 3) && decide (rs2Field v = 0)) ||
     decide (opField v = 4))

/-- Why a word is illegal (R75, R76).  The engine makes no difference between the reasons: each
completes with ILLEGAL_COMMAND (R91). -/
inductive IllegalWord where
  /-- A bit of RSV, bits 31 to 16, is set. -/
  | reservedBits
  /-- The opcode is 0 or 5 to 15 (R76). -/
  | reservedOpcode
  /-- A field the opcode's row requires to be zero is not (R73). -/
  | requiredZero
  deriving DecidableEq, Repr

/-- The reason a word that is not legal is rejected for. -/
def whyIllegal (v : Word) : IllegalWord :=
  if rsvField v ≠ 0 then .reservedBits
  else if opField v = 0 ∨ 5 ≤ opField v then .reservedOpcode
  else .requiredZero

/-- R78: what the decoder answers, one of the four commands or ILLEGAL. -/
inductive Decoded where
  | cmd (i : Instr)
  | illegal (why : IllegalWord)
  deriving DecidableEq, Repr

/-- R72: the register a 4-bit field value names. -/
def regOfField (f : Nat) : RegIdx := Fin.ofNat 16 f

/-- R78: the decoder. -/
def decode (v : Word) : Decoded :=
  if legal v = false then .illegal (whyIllegal v)
  else if opField v = 1 then .cmd (.ctxinit (regOfField (rs1Field v)))
  else if opField v = 2 then .cmd (.tomont (regOfField (rdField v)) (regOfField (rs1Field v)))
  else if opField v = 3 then .cmd (.frommont (regOfField (rdField v)) (regOfField (rs1Field v)))
  else .cmd (.montmul (regOfField (rdField v)) (regOfField (rs1Field v)) (regOfField (rs2Field v)))

/-- R79: the word of a command. -/
def encode : Instr → Word
  | .ctxinit s => BitVec.ofNat 32 ((s.val <<< 8) ||| 0x1)
  | .tomont d s => BitVec.ofNat 32 ((s.val <<< 8) ||| (d.val <<< 4) ||| 0x2)
  | .frommont d s => BitVec.ofNat 32 ((s.val <<< 8) ||| (d.val <<< 4) ||| 0x3)
  | .montmul d s t => BitVec.ofNat 32 ((t.val <<< 12) ||| (s.val <<< 8) ||| (d.val <<< 4) ||| 0x4)

/-- The command word the opcode table numbers as the low `nbits` bits of `w`; the bits above are 0. -/
def tableWord (nbits w : Nat) : Word := BitVec.ofNat 32 (w % 2 ^ nbits)

/-- What the decoder reads from a table row's word.  A command is one 32-bit word written to CMD in
one bus write (R77), so the table's bit numbers are the word's own and no byte order enters. -/
def decodeTableWord (nbits w : Nat) : Option Instr :=
  match decode (tableWord nbits w) with
  | .cmd i => some i
  | .illegal _ => none

end Sys2Proof
end

