-- ==== Sys2Proof/Machine/State.lean ====
section
/-! DEFINITION. The state of the engine and of its bus port (spec 10_state.md R19 to R46), the two
ways a step can stop, and the state after reset. -/

namespace Sys2Proof.Machine

/-- R20, R22: one operand register.  `value` holds its bits as the unsigned integer of R12; bit b of
`known` is 1 once bit b has been written since reset.  A bit that is not known is unspecified: a read
of it is a fresh draw (`XReg.sample`), and `value` holds 0 there.  Log entry 2. -/
structure XReg where
  value : Nat
  known : Nat
  deriving DecidableEq, Repr

/-- R25: the context registers.  R = 2^K is not stored. -/
structure Context where
  n      : Nat
  k      : Nat
  rinv   : Nat
  nprime : Nat
  valid  : Bool
  deriving DecidableEq, Repr

/-- R136: the error codes completion writes to STATUS.ERR.  Codes 5 to 15 are never written. -/
inductive ErrCode where
  | none
  | invalidModulus
  | noContext
  | illegalCommand
  | invariantViolation
  deriving DecidableEq, Repr

/-- R30: the fields of STATUS that are state of their own.  STATUS.CTX_VALID is the bit CTX.VALID
(R33) and lives in `Context`. -/
structure Status where
  busy  : Bool
  done  : Bool
  fatal : Bool
  ovr   : Bool
  err   : ErrCode
  deriving DecidableEq, Repr

/-- R48: one host bus access, with its byte address and its size in bytes.  Only size 4 at a multiple
of 4 is admitted (R56); the data of a write of another size plays no part, because such a write has
no effect (R57). -/
inductive Access where
  | read (addr size : Nat)
  | write (addr size : Nat) (data : Word)
  deriving DecidableEq, Repr

/-- One turn of the interleaving of R63 and R85, or the reset event of R157. -/
inductive Turn where
  /-- The engine agent steps, if it has a step enabled (R86). -/
  | engine
  /-- The host performs one bus access. -/
  | access (a : Access)
  /-- The external reset event. -/
  | reset
  deriving DecidableEq, Repr

/-- What the bus port answered to the host's latest access: the word a read returned, or that a write
was taken.  The model's own field: the spec gives a read's data to the host and does not store it. -/
inductive BusResp where
  | idle
  | readData (w : Word)
  | writeDone
  deriving DecidableEq, Repr

/-- R19: the architectural state, with the parameters `cfg` (no step changes them), and three fields of
the model's own: `draws`, `schedule` and `resp`. -/
structure State where
  /-- The parameters W and BASE (R6, R9). -/
  cfg      : Config
  /-- R20: the operand register file X[0..15]. -/
  x        : Vector XReg 16
  /-- R25: CTX.N, CTX.K, CTX.RINV, CTX.NPRIME and CTX.VALID. -/
  ctx      : Context
  /-- R29: CTRL.IE. -/
  ie       : Bool
  /-- R30: STATUS.BUSY, DONE, FATAL, OVR and ERR. -/
  status   : Status
  /-- R39: LASTCMD. -/
  lastcmd  : Word
  /-- R41: CMDLATCH. -/
  cmdlatch : Word
  /-- The model's own: how many unspecified reads have been drawn (R22); the next one takes
  `Config.freeValue draws`. -/
  draws    : Nat
  /-- R10, R63: the completion schedule as data, the turns still to come, oldest first.  When it is
  empty the engine has every turn, so an enabled engine step is eventually taken (R86). -/
  schedule : List Turn
  /-- The model's own: the bus port's answer to the host's latest access. -/
  resp     : BusResp
  deriving DecidableEq, Repr

/-- What stops the machine with a fault.  Both are faults of the host agent: no command raises one. -/
inductive Fault where
  /-- R57: raised by a host access inside the window that is not 4 bytes at a multiple of 4.  The spec
  names this fault and its reason; no state changes.  Safe. -/
  | busError (addr : Nat)
  /-- R48: raised by a host access at an address outside BASE to BASE + 0xFFFF, which the engine does not
  decode.  Safe: the machine stops where the platform goes on. -/
  | notDecoded (addr : Nat)
  deriving DecidableEq, Repr

/-- Why a command has no meaning.  Every command has one, so no step raises this. -/
inductive Refusal where
  /-- Raised by an arm of `exec` that has no meaning yet; none is left.  Safe. -/
  | notModelled (mnemonic : String)
  deriving DecidableEq, Repr

/-- R22, R46: an operand register after reset: no bit is specified. -/
def XReg.unspecified : XReg := ⟨0, 0⟩

/-- R25, R46: the context registers after reset. -/
def Context.empty : Context := ⟨0, 0, 0, 0, false⟩

/-- R30, R46: STATUS after reset. -/
def Status.cleared : Status := ⟨false, false, false, false, .none⟩

/-- R46: every piece of state after reset, for the parameters `cfg`.  CMDLATCH is unspecified with no
effect there; 0 is a DESIGN CHOICE (log entry 3).  The model's own fields start at 0, empty and idle
(log entries 2 and 4). -/
def State.resetWith (cfg : Config) : State where
  cfg      := cfg
  x        := Vector.replicate 16 XReg.unspecified
  ctx      := Context.empty
  ie       := false
  status   := Status.cleared
  lastcmd  := 0
  cmdlatch := 0
  draws    := 0
  schedule := []
  resp     := .idle

/-- The machine right after reset, with the parameters of log entry 1. -/
def State.reset : State := State.resetWith Config.chosen

end Sys2Proof.Machine
end

