-- ==== Sys2Proof/Machine/AddressMap.lean ====
section
/-! DEFINITION. The address map of the 64 KiB register window (spec 20_memory.md R48, R51). -/

namespace Sys2Proof.Machine

/-- R51: what stands at a word of the window; `j` is the word index inside a big register's window. -/
inductive Loc where
  | id
  | param
  | ctrl
  | status
  | cmd
  | ack
  | ctxk
  | lastcmd
  | ctxN (j : Nat)
  | ctxRinv (j : Nat)
  | ctxNprime (j : Nat)
  | x (i : RegIdx) (j : Nat)
  | reserved
  deriving DecidableEq, Repr

/-- R51: the address map, from the offset of a 4-aligned word below 0x10000. -/
def locate (off : Nat) : Loc :=
  if off = 0x0000 then .id
  else if off = 0x0004 then .param
  else if off = 0x0008 then .ctrl
  else if off = 0x000C then .status
  else if off = 0x0010 then .cmd
  else if off = 0x0014 then .ack
  else if off = 0x0018 then .ctxk
  else if off = 0x001C then .lastcmd
  else if off < 0x0800 then .reserved
  else if off < 0x1000 then .ctxN ((off - 0x0800) / 4)
  else if off < 0x1800 then .ctxRinv ((off - 0x1000) / 4)
  else if off < 0x2000 then .ctxNprime ((off - 0x1800) / 4)
  else if off < 0x8000 then .reserved
  else .x (Fin.ofNat 16 ((off - 0x8000) / bigWindow)) ((off - 0x8000) % bigWindow / 4)

/-- The byte address of an access. -/
def Access.addr : Access → Nat
  | .read a _ => a
  | .write a _ _ => a

/-- The size in bytes of an access. -/
def Access.size : Access → Nat
  | .read _ n => n
  | .write _ n _ => n

/-- R48: the port responds to BASE to BASE + 0xFFFF. -/
def Access.inWindow (c : Config) (a : Access) : Bool :=
  decide (c.base ≤ a.addr) && decide (a.addr < c.base + windowSize)

/-- R56: an access is admitted only when its size is 4 bytes and its address is a multiple of 4. -/
def Access.admitted (a : Access) : Bool := decide (a.size = 4) && decide (a.addr % 4 = 0)

end Sys2Proof.Machine
end

