-- ==== Sys2Proof/Machine/Operands.lean ====
section
/-! DEFINITION. The arithmetic primitives of the rules (spec 00_scope.md R12, R13) and every read and
write of the operand register file (10_state.md R20 to R22; 20_memory.md R52, R53). -/

namespace Sys2Proof.Machine

/-- R13: `low(a, k) = a mod 2^k`. -/
def low (a k : Nat) : Nat := a % 2 ^ k

/-- R13: `bitlen(a)`, the unique k with 2^(k-1) <= a < 2^k, and 0 for a = 0. -/
def bitlen (a : Nat) : Nat := if a = 0 then 0 else a.log2 + 1

/-- Half of `x` modulo an odd `n`. -/
def halveMod (n x : Nat) : Nat := if x % 2 = 0 then x / 2 else (x + n) / 2

/-- R13, R102: `inv(2^k, n)` for odd n, the unique x in [0, n) with (2^k * x) mod n = 1 mod n, got by
halving 1 modulo n k times.  The spec leaves the method free (R102, U8). -/
def invTwoPow : Nat → Nat → Nat
  | 0, n => 1 % n
  | k + 1, n => halveMod n (invTwoPow k n)

/-- The W-bit pattern of ones. -/
def fullMask (W : Nat) : Nat := 2 ^ W - 1

/-- The bits of word j of a register (R52). -/
def wordMask (j : Nat) : Nat := (2 ^ 32 - 1) <<< (32 * j)

/-- R52: word j of a W-bit value, `V[32*j+31 : 32*j]`. -/
def wordOf (v j : Nat) : Word := BitVec.ofNat 32 (v >>> (32 * j))

/-- R53: what a big register's window shows at word j: the word below L, and 0 from L on. -/
def windowWord (c : Config) (v j : Nat) : Word := if j < c.L then wordOf v j else 0

/-- The register X[i] as stored. -/
def State.reg (s : State) (i : RegIdx) : XReg := s.x[i.val]

/-- Replace the register X[i]. -/
def State.setReg (s : State) (i : RegIdx) (r : XReg) : State := { s with x := s.x.set i.val r }

/-- The bits of `mask` that the register does not specify. -/
def XReg.missing (r : XReg) (mask : Nat) : Nat := mask ^^^ (mask &&& r.known)

/-- R22: the bits of `mask` of a register, where the unspecified ones come from the draw `d`. -/
def XReg.sample (r : XReg) (mask d : Nat) : Nat :=
  (r.value &&& (mask &&& r.known)) ||| (d &&& r.missing mask)

/-- R22: read the bits of `mask` of X[i].  If all are specified nothing else happens; if one is not, the
read takes the next free value, so that every such read is a fresh draw. -/
def State.readBits (s : State) (i : RegIdx) (mask : Nat) : Nat × State :=
  if (s.reg i).missing mask = 0 then ((s.reg i).value &&& mask, s)
  else ((s.reg i).sample mask (Config.freeValue s.draws).toNat, { s with draws := s.draws + 1 })

/-- R14: `X[i]`, the whole register read as a source. -/
def State.readX (s : State) (i : RegIdx) : Nat × State := s.readBits i (fullMask s.cfg.W)

/-- R14: `X[i] <- v`; every bit is specified from now on. -/
def State.writeX (s : State) (i : RegIdx) (v : Nat) : State := s.setReg i ⟨v, fullMask s.cfg.W⟩

/-- R53: the register with bits [32*j+31 : 32*j] replaced by v; no other bit changes. -/
def XReg.replaceWord (W : Nat) (r : XReg) (j : Nat) (v : Word) : XReg where
  value := (r.value &&& (fullMask W ^^^ wordMask j)) ||| (v.toNat <<< (32 * j))
  known := r.known ||| wordMask j

/-- R52, R53: a host read of window word j of X[i]. -/
def State.readXWord (s : State) (i : RegIdx) (j : Nat) : Word × State :=
  if j < s.cfg.L then
    let r := s.readBits i (wordMask j)
    (wordOf r.1 j, r.2)
  else (0, s)

/-- R53, R59: a host write of window word j of X[i].  While a command is in flight it is dropped and OVR
is set, whatever j; else it replaces word j for j < L and is ignored from L on. -/
def State.writeXWord (s : State) (i : RegIdx) (j : Nat) (v : Word) : State :=
  if s.status.busy then { s with status := { s.status with ovr := true } }
  else if j < s.cfg.L then s.setReg i ((s.reg i).replaceWord s.cfg.W j v)
  else s

end Sys2Proof.Machine
end

