-- ==== Sys2Proof/Machine/Flags.lean ====
section
/-! DEFINITION. The control and status registers as the words the host reads, and the interrupt output
(spec 10_state.md R27 to R40, R45). -/

namespace Sys2Proof.Machine

/-- R136: the 4-bit code of an error. -/
def ErrCode.code : ErrCode → Nat
  | .none => 0
  | .invalidModulus => 1
  | .noContext => 2
  | .illegalCommand => 3
  | .invariantViolation => 4

/-- R30: STATUS.  Bits [7:5] and [31:12] read 0.  Bit 2 is CTX.VALID (R33). -/
def State.statusWord (s : State) : Word :=
  BitVec.ofNat 32
    (s.status.busy.toNat + s.status.done.toNat * 2 + s.ctx.valid.toNat * 4 + s.status.fatal.toNat * 8 +
      s.status.ovr.toNat * 16 + s.status.err.code * 256)

/-- R29: CTRL.  Bits [31:1] read 0. -/
def State.ctrlWord (s : State) : Word := BitVec.ofNat 32 s.ie.toNat

/-- R28: PARAM: WIDTH in [15:0], NREG in [23:16], VERSION in [31:24]. -/
def paramWord (c : Config) : Word := BitVec.ofNat 32 (c.W + nreg * 2 ^ 16 + versionValue * 2 ^ 24)

/-- R40: CTXK: K in [15:0], 0 above. -/
def State.ctxkWord (s : State) : Word := BitVec.ofNat 32 (low s.ctx.k 16)

/-- R45: the interrupt output, a level computed from the state. -/
def State.irq (s : State) : Bool := s.ie && s.status.done

end Sys2Proof.Machine
end

