-- ==== Sys2Proof/Machine/Ops.lean ====
section
/-! DEFINITION. The shared operations: completion, entry to the fatal state, the context check, the
effects of writes to CMD, ACK and CTRL, and the reset event (spec 40_command.md R87 to R93,
60_exceptions.md R142 to R148, 70_reset_and_hazards.md R157). -/

namespace Sys2Proof.Machine

/-- R93: `complete(code)`, the end of every completion step that does not enter the fatal state.  With
code ≠ NONE it is the engine's analogue of trap entry (R147). -/
def State.complete (s : State) (code : ErrCode) : State :=
  { s with status := { s.status with err := code, busy := false, done := true } }

/-- R142: `raise FATAL(code)`. -/
def State.raiseFatal (s : State) (code : ErrCode) : State :=
  { s with status := { s.status with fatal := true, err := code, busy := false, done := true } }

/-- R90, R92: the shared check of every command but CTXINIT: with no context it completes with
NO_CONTEXT and reads no operand. -/
def State.needContext (s : State) (body : State → State) : State :=
  if s.ctx.valid then body s else s.complete .noContext

/-- R89: what accepting a command word does. -/
def State.accept (s : State) (v : Word) : State :=
  { s with
    cmdlatch := v
    lastcmd := v
    status := { s.status with done := false, err := .none, busy := true } }

/-- R87, R88, R89: a write to CMD: ignored in the fatal state, dropped with OVR while a command is in
flight, else accepted whatever the word. -/
def State.writeCmd (s : State) (v : Word) : State :=
  if s.status.fatal then s
  else if s.status.busy then { s with status := { s.status with ovr := true } }
  else s.accept v

/-- R38: a write to ACK, the analogue of trap return (R148). -/
def State.writeAck (s : State) (v : Word) : State :=
  if v.getLsbD 0 then
    { s with
      status :=
        { s.status with
          done := false
          ovr := false
          err := if s.status.fatal then s.status.err else .none } }
  else s

/-- R29: a write to CTRL: bit 0 is IE, the rest is ignored. -/
def State.writeCtrl (s : State) (v : Word) : State := { s with ie := v.getLsbD 0 }

/-- R157: the reset event: every piece of state takes its reset value.  The parameters are no state
(R19), the schedule is the outside's, and the count of draws runs on so that a draw after reset is fresh. -/
def State.resetEvent (s : State) : State :=
  { State.resetWith s.cfg with draws := s.draws, schedule := s.schedule, resp := s.resp }

end Sys2Proof.Machine
end

