-- ==== Sys2Proof/Machine/Bus.lean ====
section
/-! DEFINITION. The host agent's step: one bus access to the register window (spec 20_memory.md R48 to R62). -/

namespace Sys2Proof.Machine

/-- R53, R58, R60: what a read of one window word returns.  The only state a read can touch is the
model's count of draws, when the word is unspecified since reset (R22). -/
def State.readLoc (s : State) : Loc → Word × State
  | .id => (idValue, s)
  | .param => (paramWord s.cfg, s)
  | .ctrl => (s.ctrlWord, s)
  | .status => (s.statusWord, s)
  | .cmd => (0, s)
  | .ack => (0, s)
  | .ctxk => (s.ctxkWord, s)
  | .lastcmd => (s.lastcmd, s)
  | .ctxN j => (windowWord s.cfg s.ctx.n j, s)
  | .ctxRinv j => (windowWord s.cfg s.ctx.rinv j, s)
  | .ctxNprime j => (windowWord s.cfg s.ctx.nprime j, s)
  | .x i j => s.readXWord i j
  | .reserved => (0, s)

/-- R53, R58 to R60: what a write of one window word does. -/
def State.writeLoc (s : State) (v : Word) : Loc → State
  | .id => s
  | .param => s
  | .ctrl => s.writeCtrl v
  | .status => s
  | .cmd => s.writeCmd v
  | .ack => s.writeAck v
  | .ctxk => s
  | .lastcmd => s
  | .ctxN _ => s
  | .ctxRinv _ => s
  | .ctxNprime _ => s
  | .x i j => s.writeXWord i j v
  | .reserved => s

/-- One admitted access at a window offset. -/
def State.serve (s : State) : Access → State
  | .read addr _ =>
    let r := s.readLoc (locate (addr - s.cfg.base))
    { r.2 with resp := .readData r.1 }
  | .write addr _ v => { s.writeLoc v (locate (addr - s.cfg.base)) with resp := .writeDone }

/-- R48, R56, R57: the host's step.  Outside the window the engine does not decode the access; inside it, an
access that is not admitted is a bus error; both stop the host agent with no state changed. -/
def hostTurn (a : Access) (s : State) : Host.Outcome State Fault Refusal :=
  if a.inWindow s.cfg = false then .fault (.notDecoded a.addr)
  else if a.admitted = false then .fault (.busError a.addr)
  else .next (s.serve a)

/-- R54: the byte at window offset `q`: bits [8*b+7 : 8*b] of the bus word, for b = q mod 4. -/
def State.windowByte (s : State) (q : Nat) : Byte :=
  BitVec.ofNat 8 ((s.readLoc (locate (q - q % 4))).1.toNat >>> (8 * (q % 4)))

end Sys2Proof.Machine
end

