-- ==== Sys2Proof/Machine/Ctxinit.lean ====
section
/-! DEFINITION. CTXINIT, context construction (spec 41_ctxinit.md R100 to R111). -/

namespace Sys2Proof.Machine

/-- R101 to R103: the context of an accepted modulus n, or `none` if the division for NPRIME is not exact
(R105; unreachable by R104, and kept). -/
def makeContext (n : Nat) : Option Context :=
  let k := bitlen n
  let rinv := invTwoPow k n
  let num : Int := (2 ^ k * rinv : Nat) - 1
  if num % (n : Int) ≠ 0 then none
  else some ⟨n, k, rinv, ((num / (n : Int)) % ((2 ^ k : Nat) : Int)).toNat, true⟩

/-- R106: the end of CTXINIT for the modulus value n. -/
def State.constructContext (s : State) (n : Nat) : State :=
  if n % 2 = 0 then s.complete .invalidModulus
  else
    match makeContext n with
    | none => s.raiseFatal .invariantViolation
    | some c => { s with ctx := c }.complete .none

/-- R106: `exec_ctxinit`. -/
def execCtxinit (rs1 : RegIdx) (s : State) : Host.Outcome State Fault Refusal :=
  let r := s.readX rs1
  .next (r.2.constructContext r.1)

end Sys2Proof.Machine
end

