-- ==== Sys2Proof/Machine/Domain.lean ====
section
/-! DEFINITION. TOMONT and FROMMONT, domain entry and exit (spec 42_domain.md R112 to R120). -/

namespace Sys2Proof.Machine

/-- R114: `(t * 2^K) mod N`. -/
def toMontgomery (c : Context) (t : Nat) : Nat := t * 2 ^ c.k % c.n

/-- R118: `(m * RINV) mod N`. -/
def fromMontgomery (c : Context) (m : Nat) : Nat := m * c.rinv % c.n

/-- R114: `exec_tomont`, after the shared context check. -/
def execTomont (rd rs1 : RegIdx) (s : State) : Host.Outcome State Fault Refusal :=
  .next (s.needContext fun s =>
    let r := s.readX rs1
    (r.2.writeX rd (toMontgomery s.ctx r.1)).complete .none)

/-- R118: `exec_frommont`, after the shared context check. -/
def execFrommont (rd rs1 : RegIdx) (s : State) : Host.Outcome State Fault Refusal :=
  .next (s.needContext fun s =>
    let r := s.readX rs1
    (r.2.writeX rd (fromMontgomery s.ctx r.1)).complete .none)

end Sys2Proof.Machine
end

