-- ==== Sys2Proof/Machine/Montmul.lean ====
section
/-! DEFINITION. MONTMUL, the REDC pipeline (spec 43_montmul.md R121 to R132). -/

namespace Sys2Proof.Machine

/-- R123, stage 2: `m = low(low(t, K) * NPRIME, K)`. -/
def redcM (c : Context) (t : Nat) : Nat := low (low t c.k * c.nprime) c.k

/-- R124, stage 3: `u = (t + m * N) >> K`. -/
def redcU (c : Context) (t : Nat) : Nat := (t + redcM c t * c.n) >>> c.k

/-- R125, stage 4: one subtraction of N if u >= N, never two. -/
def redcCorrect (c : Context) (u : Nat) : Nat := if c.n ≤ u then u - c.n else u

/-- R122 to R126: the value of the pipeline on a and b, or `none` where stage 5 finds it not below N. -/
def redc (c : Context) (a b : Nat) : Option Nat :=
  let u := redcCorrect c (redcU c (a * b))
  if c.n ≤ u then none else some u

/-- R126, R127: the end of MONTMUL: the fatal state, or the commit to X[rd]. -/
def State.commitProduct (s : State) (rd : RegIdx) : Option Nat → State
  | none => s.raiseFatal .invariantViolation
  | some u => (s.writeX rd u).complete .none

/-- R128: `exec_montmul`, after the shared context check.  Both sources are read before the destination is
written (R95). -/
def execMontmul (rd rs1 rs2 : RegIdx) (s : State) : Host.Outcome State Fault Refusal :=
  .next (s.needContext fun s =>
    let a := s.readX rs1
    let b := a.2.readX rs2
    b.2.commitProduct rd (redc s.ctx a.1 b.1))

end Sys2Proof.Machine
end

