-- ==== Sys2Proof/Machine/Engine.lean ====
section
/-! DEFINITION. The engine agent's step, and whose turn it is (spec 40_command.md R85, R86, R90; 20_memory.md R63). -/

namespace Sys2Proof.Machine

/-- R86, R90, R91: the completion step, enabled exactly when BUSY = 1: decode CMDLATCH and run the command.
With BUSY = 0 the engine is idle and holds all state (R156). -/
def engineTurn (s : State) : Host.Outcome State Fault Refusal :=
  if s.status.busy then
    match decode s.cmdlatch with
    | .illegal _ => .next (s.complete .illegalCommand)
    | .cmd i => exec i s
  else .next s

/-- R63, R85, R157: take the next turn of the interleaving.  When no turn is left the engine has every
turn (R86, weak fairness). -/
def takeTurn (s : State) : Host.Outcome State Fault Refusal :=
  match s.schedule with
  | [] => engineTurn s
  | .engine :: rest => engineTurn { s with schedule := rest }
  | .access a :: rest => hostTurn a { s with schedule := rest }
  | .reset :: rest => .next ({ s with schedule := rest }.resetEvent)

end Sys2Proof.Machine
end

