-- ==== Sys2Proof/Machine/Step.lean ====
section
/-! DEFINITION. One step of the machine: one turn of the interleaving of host and engine (spec 20_memory.md R63). -/

namespace Sys2Proof.Machine

/-- One step: the next turn of the schedule. -/
def step (s : State) : Host.Outcome State Fault Refusal := takeTurn s

/-- The engine fetches nothing: its next command is the word in CMDLATCH, put there by an accepted CMD
write (R23, R89).  So this state is `s` after that acceptance (R89), with the engine's turn next.  Log
entry 5. -/
def State.withFetchWord (s : State) (nbits w : Nat) : State :=
  { s.accept (tableWord nbits w) with schedule := .engine :: s.schedule }

end Sys2Proof.Machine
end

