-- ==== Sys2Proof/Machine/Asm.lean ====
section
/-! DEFINITION. The assembler: one command per line of text (spec 30_encoding.md R80 to R83). -/

namespace Sys2Proof.Machine

/-- What one line assembles to: nothing (a blank line or a comment alone), a command, or an error. -/
inductive AsmLine where
  | empty
  | cmd (i : Instr)
  | bad
  deriving DecidableEq, Repr

/-- A blank between the parts of a line.  DEDUCED, log entry 14: R80 does not say which characters part them. -/
def isBlank (c : Char) : Bool := c == ' ' || c == '\t'

/-- R80: a `;` begins a comment. -/
def stripComment (cs : List Char) : List Char := cs.takeWhile (· != ';')

/-- The characters without the blanks at both ends. -/
def trimBlanks (cs : List Char) : List Char := ((cs.dropWhile isBlank).reverse.dropWhile isBlank).reverse

/-- R80: the operands, between the commas. -/
def splitCommas : List Char → List (List Char)
  | [] => [[]]
  | c :: cs =>
    match splitCommas cs with
    | [] => [[c]]
    | p :: ps => if c == ',' then [] :: p :: ps else (c :: p) :: ps

/-- R81: the name of X[i], `x0` to `x15`. -/
def regName (i : RegIdx) : List Char :=
  if i.val < 10 then ['x', Char.ofNat (48 + i.val)] else ['x', '1', Char.ofNat (38 + i.val)]

/-- R81: the register a name stands for; no other name exists. -/
def parseReg (cs : List Char) : Option RegIdx := (List.finRange 16).find? fun i => regName i == cs

/-- R82, R83: the command of a mnemonic and its operands. -/
def asmCommand (mnemonic : List Char) (regs : Option (List RegIdx)) : AsmLine :=
  if mnemonic == ['C', 'T', 'X', 'I', 'N', 'I', 'T'] then
    match regs with
    | some [s] => .cmd (.ctxinit s)
    | _ => .bad
  else if mnemonic == ['T', 'O', 'M', 'O', 'N', 'T'] then
    match regs with
    | some [d, s] => .cmd (.tomont d s)
    | _ => .bad
  else if mnemonic == ['F', 'R', 'O', 'M', 'M', 'O', 'N', 'T'] then
    match regs with
    | some [d, s] => .cmd (.frommont d s)
    | _ => .bad
  else if mnemonic == ['M', 'O', 'N', 'T', 'M', 'U', 'L'] then
    match regs with
    | some [d, a, b] => .cmd (.montmul d a b)
    | _ => .bad
  else if mnemonic == ['M', 'O', 'N', 'T', 'S', 'Q', 'R'] then
    match regs with
    | some [d, a] => .cmd (Instr.montsqr d a)
    | _ => .bad
  else .bad

/-- R80: one line, its mnemonic in either case. -/
def asmLine (line : List Char) : AsmLine :=
  let body := trimBlanks (stripComment line)
  if body.isEmpty then .empty
  else
    asmCommand ((body.takeWhile fun c => !isBlank c).map Char.toUpper)
      ((splitCommas (body.dropWhile fun c => !isBlank c)).mapM fun p => parseReg (trimBlanks p))

/-- R80: a line of text. -/
def assemble (line : String) : AsmLine := asmLine line.toList

/-- R82: the line of a command. -/
def asmText : Instr → List Char
  | .ctxinit s => "CTXINIT ".toList ++ regName s
  | .tomont d s => "TOMONT ".toList ++ regName d ++ ", ".toList ++ regName s
  | .frommont d s => "FROMMONT ".toList ++ regName d ++ ", ".toList ++ regName s
  | .montmul d a b => "MONTMUL ".toList ++ regName d ++ ", ".toList ++ regName a ++ ", ".toList ++ regName b

end Sys2Proof.Machine
end

