-- ==== Sys2Proof/Machine/HostProgram.lean ====
section
/-! DEFINITION. The host program notation as turns of the schedule (spec 00_scope.md R16).  It is no
instruction set of the engine: each line stands for host accesses. -/

namespace Sys2Proof.Machine

/-- R16: `WR off, v`. -/
def hostWR (c : Config) (off : Nat) (v : Word) : Turn := .access (.write (c.base + off) 4 v)

/-- R16: `RD off`; what it reads is the answer of that turn. -/
def hostRD (c : Config) (off : Nat) : Turn := .access (.read (c.base + off) 4)

/-- R16, R52: `WRX i, v`, L word writes, least significant word first. -/
def hostWRX (c : Config) (i : RegIdx) (v : Nat) : List Turn :=
  (List.range c.L).map fun j => hostWR c (0x8000 + 0x800 * i.val + 4 * j) (wordOf v j)

/-- R16, R52: `RDX i`, L word reads. -/
def hostRDX (c : Config) (i : RegIdx) : List Turn :=
  (List.range c.L).map fun j => hostRD c (0x8000 + 0x800 * i.val + 4 * j)

/-- R16: `WAIT` when `polls` reads of STATUS find BUSY set before the completion and one read after it finds
BUSY clear. -/
def hostWAIT (c : Config) (polls : Nat) : List Turn :=
  List.replicate polls (hostRD c 0x00C) ++ [.engine, hostRD c 0x00C]

/-- R16: `ISSUE cmdword`. -/
def hostISSUE (c : Config) (w : Word) (polls : Nat) : List Turn := hostWR c 0x010 w :: hostWAIT c polls

end Sys2Proof.Machine
end

