-- ==== Sys2Proof/Safety.lean ====
section
/-! DEFINITION. What counts as a good state and a safe step, in the terms the statements use
(spec 10_state.md R31 to R36, R43, R44). -/

namespace Sys2Proof.Machine

/-- X[i] holds the specified W-bit value v: every bit has been written since reset (R20, R22). -/
abbrev State.Holds (s : State) (i : RegIdx) (v : Nat) : Prop :=
  s.reg i = ⟨v, fullMask s.cfg.W⟩ ∧ v < 2 ^ s.cfg.W

/-- The canonical form of a stored register: W bits wide, and an unspecified bit is stored as 0. -/
abbrev XReg.Wf (W : Nat) (r : XReg) : Prop :=
  r.value < 2 ^ W ∧ r.known < 2 ^ W ∧ r.value &&& r.known = r.value

/-- R43: what a valid context satisfies. -/
abbrev Context.Sound (W : Nat) (c : Context) : Prop :=
  c.n % 2 = 1 ∧ c.n < 2 ^ W ∧
  c.k = bitlen c.n ∧
  c.rinv < c.n ∧ 2 ^ c.k * c.rinv % c.n = 1 % c.n ∧
  c.nprime < 2 ^ c.k ∧ c.n * c.nprime % 2 ^ c.k = 2 ^ c.k - 1 ∧
  (3 ≤ c.n → 2 ^ c.k * c.rinv = c.n * c.nprime + 1)

/-- The machine invariant: legal parameters, canonical registers, the context of R43 or R44, and the
STATUS relations of R31, R32, R36 and R143.  While a command is in flight LASTCMD is its word (R39, R41). -/
abbrev State.Inv (s : State) : Prop :=
  s.cfg.wf = true ∧
  (∀ i : RegIdx, (s.reg i).Wf s.cfg.W) ∧
  (s.ctx.valid = true → s.ctx.Sound s.cfg.W) ∧
  (s.ctx.valid = false → s.ctx = Context.empty) ∧
  ¬ (s.status.busy = true ∧ s.status.done = true) ∧
  ¬ (s.status.busy = true ∧ s.status.fatal = true) ∧
  (s.status.fatal = true ↔ s.status.err = .invariantViolation) ∧
  (s.status.busy = true → s.status.err = .none ∧ s.lastcmd = s.cmdlatch)

/-- A safe step: the host got no bus fault and the machine is not in the fatal state. -/
def SafeStep (s : State) : Prop := ∃ t, step s = .next t ∧ t.status.fatal = false

/-- A safe run of k steps: every one of them is safe. -/
def SafeRun : Nat → State → Prop
  | 0, s => s.status.fatal = false
  | k + 1, s => s.status.fatal = false ∧ ∃ t, step s = .next t ∧ SafeRun k t

end Sys2Proof.Machine
end

