-- ==== Sys2Proof/Certificates/Slice0/Obligations.lean ====
section
/-! DEFINITION. The statements for the provers.  They come from the numbered rules of spec/; each
docstring names the rules.  A premise `s.Inv` is the machine invariant of Safety.lean, which
`InvariantHoldsAfterReset` and `EveryStepKeepsInvariant` state of its own. -/

open Sys2Proof Sys2Proof.Machine

/-! ### Encoding -/

/-- R79: `enc` as the rule writes it, and `decode` and `enc` are inverse on commands and legal words. -/
def Obligations.DecodeAndEncodeAgree : Prop :=
  (∀ s : RegIdx, (encode (.ctxinit s)).toNat = (s.val <<< 8) ||| 0x1) ∧
  (∀ d s : RegIdx, (encode (.tomont d s)).toNat = (s.val <<< 8) ||| (d.val <<< 4) ||| 0x2) ∧
  (∀ d s : RegIdx, (encode (.frommont d s)).toNat = (s.val <<< 8) ||| (d.val <<< 4) ||| 0x3) ∧
  (∀ d s t : RegIdx,
    (encode (.montmul d s t)).toNat = (t.val <<< 12) ||| (s.val <<< 8) ||| (d.val <<< 4) ||| 0x4) ∧
  (∀ i : Instr, decode (encode i) = .cmd i) ∧
  (∀ (v : Word) (i : Instr), decode v = .cmd i → encode i = v)

/-- R78, with the legality of R75 written out: the decoder's answer on every one of the 2^32 words. -/
def Obligations.DecoderAcceptsExactlyTheLegalWords : Prop :=
  ∀ v : Word,
    let f := fun hi lo : Nat => v.toNat / 2 ^ lo % 2 ^ (hi - lo + 1)
    let isLegal := f 31 16 = 0 ∧
      ((f 3 0 = 1 ∧ f 7 4 = 0 ∧ f 15 12 = 0) ∨ (f 3 0 = 2 ∧ f 15 12 = 0) ∨ (f 3 0 = 3 ∧ f 15 12 = 0) ∨ f 3 0 = 4)
    (¬ isLegal → ∃ why, decode v = .illegal why) ∧
    (isLegal → f 3 0 = 1 → ∃ s : RegIdx, s.val = f 11 8 ∧ decode v = .cmd (.ctxinit s)) ∧
    (isLegal → f 3 0 = 2 →
      ∃ d s : RegIdx, d.val = f 7 4 ∧ s.val = f 11 8 ∧ decode v = .cmd (.tomont d s)) ∧
    (isLegal → f 3 0 = 3 →
      ∃ d s : RegIdx, d.val = f 7 4 ∧ s.val = f 11 8 ∧ decode v = .cmd (.frommont d s)) ∧
    (isLegal → f 3 0 = 4 →
      ∃ d s t : RegIdx, d.val = f 7 4 ∧ s.val = f 11 8 ∧ t.val = f 15 12 ∧ decode v = .cmd (.montmul d s t))

/-- R74: each row's match and mask pick out exactly the words of its command, and no two rows match the same
word. -/
def Obligations.MatchAndMaskRowsAreTheDecoder : Prop :=
  (∀ v : Word, v &&& 0xFFFFF0FF#32 = 0x00000001#32 ↔ ∃ s, decode v = .cmd (.ctxinit s)) ∧
  (∀ v : Word, v &&& 0xFFFFF00F#32 = 0x00000002#32 ↔ ∃ d s, decode v = .cmd (.tomont d s)) ∧
  (∀ v : Word, v &&& 0xFFFFF00F#32 = 0x00000003#32 ↔ ∃ d s, decode v = .cmd (.frommont d s)) ∧
  (∀ v : Word, v &&& 0xFFFF000F#32 = 0x00000004#32 ↔ ∃ d s t, decode v = .cmd (.montmul d s t)) ∧
  List.Pairwise (fun p q : Word × Word => ∀ v : Word, ¬ (v &&& p.2 = p.1 ∧ v &&& q.2 = q.1))
    [(0x00000001#32, 0xFFFFF0FF#32), (0x00000002#32, 0xFFFFF00F#32), (0x00000003#32, 0xFFFFF00F#32),
     (0x00000004#32, 0xFFFF000F#32)]

/-- R84: the worked encodings, from text to word and from word to command, and the illegal examples. -/
def Obligations.WorkedEncodingsDecode : Prop :=
  (∀ p ∈ [("CTXINIT x0", 0x00000001#32), ("CTXINIT x15", 0x00000F01#32), ("TOMONT x2, x1", 0x00000122#32),
      ("FROMMONT x4, x3", 0x00000343#32), ("MONTMUL x3, x2, x2", 0x00002234#32),
      ("MONTMUL x15, x14, x13", 0x0000DEF4#32), ("MONTSQR x5, x5", 0x00005554#32)],
    ∃ i, assemble p.1 = .cmd i ∧ encode i = p.2) ∧
  decode 0x00000001#32 = .cmd (.ctxinit 0) ∧ decode 0x00000F01#32 = .cmd (.ctxinit 15) ∧
  decode 0x00000122#32 = .cmd (.tomont 2 1) ∧ decode 0x00000343#32 = .cmd (.frommont 4 3) ∧
  decode 0x00002234#32 = .cmd (.montmul 3 2 2) ∧ decode 0x0000DEF4#32 = .cmd (.montmul 15 14 13) ∧
  decode 0x00005554#32 = .cmd (Instr.montsqr 5 5) ∧
  ∀ v ∈ [0x00000000#32, 0x00000011#32, 0x00001002#32, 0x00010004#32, 0x00000005#32],
    ∃ why, decode v = .illegal why

/-! ### The engine's step -/

/-- R90: when the engine has the turn and CMDLATCH holds a legal word, the step is that command; when the word is
illegal, it is the completion step of R91.  The schedule's form (a turn of the engine at its head, or no turn
left) is the model's choice, log entry 4. -/
def Obligations.StepRunsTheCommandInFlight : Prop :=
  (∀ (s : State) (i : Instr), s.status.busy = true → decode s.cmdlatch = .cmd i →
    (∀ rest, s.schedule = .engine :: rest → step s = exec i { s with schedule := rest }) ∧
    (s.schedule = [] → step s = exec i s)) ∧
  (∀ (s : State) (why : IllegalWord), s.status.busy = true → decode s.cmdlatch = .illegal why →
    (∀ rest, s.schedule = .engine :: rest → step s = engineTurn { s with schedule := rest }) ∧
    (s.schedule = [] → step s = engineTurn s))

/-- R91: an accepted illegal word completes with ILLEGAL_COMMAND and changes nothing but STATUS. -/
def Obligations.IllegalWordCompletesWithIllegalCommand : Prop :=
  ∀ (s : State) (why : IllegalWord), s.status.busy = true → decode s.cmdlatch = .illegal why →
    engineTurn s = .next { s with status := ⟨false, true, s.status.fatal, s.status.ovr, .illegalCommand⟩ }

/-- R92: with CTX.VALID = 0 the other three commands complete with NO_CONTEXT, read no operand and write
nothing but STATUS. -/
def Obligations.NoContextCompletesWithNoContext : Prop :=
  ∀ (s : State) (d a b : RegIdx), s.ctx.valid = false →
    exec (.tomont d a) s = .next { s with status := ⟨false, true, s.status.fatal, s.status.ovr, .noContext⟩ } ∧
    exec (.frommont d a) s = .next { s with status := ⟨false, true, s.status.fatal, s.status.ovr, .noContext⟩ } ∧
    exec (.montmul d a b) s = .next { s with status := ⟨false, true, s.status.fatal, s.status.ovr, .noContext⟩ }

/-- R86, R93, R156: with BUSY = 0 the engine has no step enabled, and its turn changes no state. -/
def Obligations.IdleEngineHoldsAllState : Prop :=
  ∀ s : State, s.status.busy = false →
    (∀ rest, s.schedule = .engine :: rest → step s = .next { s with schedule := rest }) ∧
    (s.schedule = [] → step s = .next s)

/-- R90, R93, R99, R142: the completion step of every command answers a next state, whatever the state: BUSY is
cleared, DONE set, OVR kept, and FATAL set exactly when the code is INVARIANT_VIOLATION. -/
def Obligations.EveryCommandCompletesAndReports : Prop :=
  ∀ (s : State) (i : Instr), ∃ t, exec i s = .next t ∧
    t.status.busy = false ∧ t.status.done = true ∧ t.status.ovr = s.status.ovr ∧
    t.status.fatal = (s.status.fatal || decide (t.status.err = .invariantViolation)) ∧
    t.status.err ≠ .illegalCommand

/-- R94: results are committed only on success.  With code ≠ 0 nothing changes but STATUS; with code = 0
exactly the command's destination is written.  (`draws` is the model's own count, log entry 2.) -/
def Obligations.ResultsCommittedOnlyOnSuccess : Prop :=
  ∀ (s t : State) (i : Instr), exec i s = .next t →
    (t.status.err ≠ .none → t = { s with status := t.status, draws := t.draws }) ∧
    (t.status.err = .none →
      match i with
      | .ctxinit _ => t = { s with ctx := t.ctx, status := t.status, draws := t.draws } ∧ t.ctx.valid = true
      | .tomont d _ | .frommont d _ | .montmul d _ _ =>
        t = { s with x := t.x, status := t.status, draws := t.draws } ∧
        (∀ j, j ≠ d → t.reg j = s.reg j) ∧ (t.reg d).known = fullMask s.cfg.W)

/-- R145: when several errors apply to one accepted command, the one reported is the first of
ILLEGAL_COMMAND, NO_CONTEXT, INVALID_MODULUS, INVARIANT_VIOLATION. -/
def Obligations.ErrorPriority : Prop :=
  ∀ (s t : State), s.status.busy = true → engineTurn s = .next t →
    ((∃ why, decode s.cmdlatch = .illegal why) → t.status.err = .illegalCommand) ∧
    (∀ i, decode s.cmdlatch = .cmd i →
      ((∀ r, i ≠ .ctxinit r) → s.ctx.valid = false → t.status.err = .noContext) ∧
      (∀ r, i = .ctxinit r → (s.readX r).1 % 2 = 0 → t.status.err = .invalidModulus) ∧
      (t.status.err = .invariantViolation → s.ctx.valid = true ∧ ∃ d a b, i = .montmul d a b))

/-- R86, R95 (the schedule is the model's, log entry 4): a command in flight completes once the host's pending
accesses are done, however many there are, and it completes from the operands, context and word it was
accepted with. -/
def Obligations.CommandInFlightCompletes : Prop :=
  ∀ (s : State) (accs : List Access), s.status.busy = true →
    s.schedule = accs.map Turn.access → (∀ a ∈ accs, a.inWindow s.cfg = true ∧ a.admitted = true) →
    ∃ s' t, core.run accs.length s = .next s' ∧
      s'.x = s.x ∧ s'.ctx = s.ctx ∧ s'.cmdlatch = s.cmdlatch ∧ s'.lastcmd = s.lastcmd ∧ s'.status.busy = true ∧
      engineTurn s' = .next t ∧ core.run (accs.length + 1) s = .next t ∧
      t.status.busy = false ∧ t.status.done = true ∧ t.lastcmd = s.lastcmd

/-! ### CTXINIT -/

/-- R101 to R103, R106, R108: CTXINIT of an odd modulus writes all five context fields and reports success.
`n` is what the source reads as, written or not (R22). -/
def Obligations.CtxinitConstructsTheContext : Prop :=
  ∀ (s s' : State) (r : RegIdx) (n : Nat), s.readX r = (n, s') → n % 2 = 1 →
    ∃ k rinv np : Nat,
      1 ≤ k ∧ k ≤ s.cfg.W ∧ 2 ^ (k - 1) ≤ n ∧ n < 2 ^ k ∧
      rinv < n ∧ 2 ^ k * rinv % n = 1 % n ∧ np < 2 ^ k ∧
      (∃ q : Int, q * (n : Int) = 2 ^ k * (rinv : Int) - 1 ∧ (np : Int) = q % 2 ^ k) ∧
      exec (.ctxinit r) s = .next { s' with
        ctx := ⟨n, k, rinv, np, true⟩
        status := ⟨false, true, s.status.fatal, s.status.ovr, .none⟩ }

/-- R93, R100, R106, R107: CTXINIT of an even modulus, 0 included, completes with INVALID_MODULUS and leaves the
context in place, valid or not.  That the read of an unwritten source moves `draws`, and nothing else, is the
model's choice, log entry 2. -/
def Obligations.CtxinitRejectsAnEvenModulus : Prop :=
  ∀ (s s' : State) (r : RegIdx) (n : Nat), s.readX r = (n, s') → n % 2 = 0 →
    s' = { s with draws := s'.draws } ∧
    exec (.ctxinit r) s = .next { s' with
      status := ⟨false, true, s.status.fatal, s.status.ovr, .invalidModulus⟩ }

/-- The frame of CTXINIT (R47, R94): no operand register, control register or latch changes, FATAL and OVR
are kept, and outside STATUS, CTXK and the context windows every byte of the register window reads as
before when nothing was drawn, which is so when the source was written. -/
def Obligations.CtxinitFrame : Prop :=
  ∀ (s t : State) (r : RegIdx), exec (.ctxinit r) s = .next t →
    t = { s with ctx := t.ctx, status := t.status, draws := t.draws } ∧
    t.status.fatal = s.status.fatal ∧ t.status.ovr = s.status.ovr ∧
    (∀ v, s.Holds r v → t.draws = s.draws) ∧
    (t.draws = s.draws → ∀ q, q < 0x10000 →
      ¬ (0x0C ≤ q ∧ q < 0x10) → ¬ (0x18 ≤ q ∧ q < 0x1C) → ¬ (0x800 ≤ q ∧ q < 0x2000) →
      t.windowByte q = s.windowByte q)

/-- R109: the modulus 1 is accepted with K = 1, RINV = 0, NPRIME = 1, and every later result for an in-range
operand is 0. -/
def Obligations.ModulusOne : Prop :=
  (∀ (s : State) (r : RegIdx), s.Holds r 1 → exec (.ctxinit r) s = .next { s with
    ctx := ⟨1, 1, 0, 1, true⟩, status := ⟨false, true, s.status.fatal, s.status.ovr, .none⟩ }) ∧
  (∀ (s : State) (d a b : RegIdx), s.ctx = ⟨1, 1, 0, 1, true⟩ → s.Holds a 0 → s.Holds b 0 →
    ∀ i ∈ [Instr.tomont d a, Instr.frommont d a, Instr.montmul d a b],
      ∃ t, exec i s = .next t ∧ t.status.err = .none ∧ t.Holds d 0)

/-- R110: the largest modulus, 2^W - 1, gives K = W, RINV = 1 and NPRIME = 1. -/
def Obligations.LargestModulus : Prop :=
  ∀ (s : State) (r : RegIdx), s.cfg.wf = true → s.Holds r (2 ^ s.cfg.W - 1) →
    exec (.ctxinit r) s = .next { s with
      ctx := ⟨2 ^ s.cfg.W - 1, s.cfg.W, 1, 1, true⟩
      status := ⟨false, true, s.status.fatal, s.status.ovr, .none⟩ }

/-- R111: the construction invariants of the source, after every successful CTXINIT. -/
def Obligations.ConstructionInvariants : Prop :=
  ∀ (s t : State) (r : RegIdx), exec (.ctxinit r) s = .next t → t.status.err = .none →
    (3 ≤ t.ctx.n →
      2 ^ t.ctx.k * t.ctx.rinv % t.ctx.n = 1 ∧
      (2 : Int) ^ t.ctx.k * t.ctx.rinv - t.ctx.n * t.ctx.nprime = 1 ∧
      t.ctx.n < 2 ^ t.ctx.k ∧ Nat.gcd (2 ^ t.ctx.k) t.ctx.n = 1) ∧
    t.ctx.n * t.ctx.nprime % 2 ^ t.ctx.k = 2 ^ t.ctx.k - 1

/-! ### TOMONT and FROMMONT -/

/-- R112, R114, R120: TOMONT writes (t * 2^K) mod N, which is below N and fits the register, for every W-bit t.
Rd may be the source. -/
def Obligations.TomontEntersTheDomain : Prop :=
  ∀ (s s' : State) (d r : RegIdx) (v : Nat), s.Inv → s.ctx.valid = true → s.readX r = (v, s') →
    v * 2 ^ s.ctx.k % s.ctx.n < s.ctx.n ∧ s.ctx.n < 2 ^ s.cfg.W ∧
    exec (.tomont d r) s = .next { s' with
      x := s'.x.set d.val ⟨v * 2 ^ s.ctx.k % s.ctx.n, fullMask s.cfg.W⟩
      status := ⟨false, true, s.status.fatal, s.status.ovr, .none⟩ }

/-- R116 to R118, R120: FROMMONT writes the unique y in [0, N) with (y * 2^K) mod N = m mod N, for every W-bit m. -/
def Obligations.FrommontLeavesTheDomain : Prop :=
  ∀ (s s' : State) (d r : RegIdx) (v : Nat), s.Inv → s.ctx.valid = true → s.readX r = (v, s') →
    ∃ y, y = v * s.ctx.rinv % s.ctx.n ∧ y < s.ctx.n ∧ y < 2 ^ s.cfg.W ∧
      y * 2 ^ s.ctx.k % s.ctx.n = v % s.ctx.n ∧
      (∀ z, z < s.ctx.n → z * 2 ^ s.ctx.k % s.ctx.n = v % s.ctx.n → z = y) ∧
      exec (.frommont d r) s = .next { s' with
        x := s'.x.set d.val ⟨y, fullMask s.cfg.W⟩
        status := ⟨false, true, s.status.fatal, s.status.ovr, .none⟩ }

/-- R119: TOMONT then FROMMONT gives the value modulo N, the value itself when it is below N; so does the
other order. -/
def Obligations.DomainRoundTrip : Prop :=
  ∀ (s : State) (a b c : RegIdx) (v : Nat), s.Inv → s.ctx.valid = true → s.Holds a v →
    (∃ s1 s2, exec (.tomont b a) s = .next s1 ∧ exec (.frommont c b) s1 = .next s2 ∧
      s1.status.err = .none ∧ s2.status.err = .none ∧ s2.Holds c (v % s.ctx.n) ∧
      (v < s.ctx.n → s2.Holds c v)) ∧
    (∃ s1 s2, exec (.frommont b a) s = .next s1 ∧ exec (.tomont c b) s1 = .next s2 ∧
      s1.status.err = .none ∧ s2.status.err = .none ∧ s2.Holds c (v % s.ctx.n))

/-! ### MONTMUL -/

/-- R128, R131: with both operands below N, MONTMUL completes and writes (a * b * RINV) mod N.  Any of the three
registers may be the same. -/
def Obligations.MontmulOfInRangeOperands : Prop :=
  ∀ (s s1 s2 : State) (d a b : RegIdx) (va vb : Nat), s.Inv → s.ctx.valid = true →
    s.readX a = (va, s1) → s1.readX b = (vb, s2) → va < s.ctx.n → vb < s.ctx.n →
    exec (.montmul d a b) s = .next { s2 with
      x := s2.x.set d.val ⟨va * vb * s.ctx.rinv % s.ctx.n, fullMask s.cfg.W⟩
      status := ⟨false, true, s.status.fatal, s.status.ovr, .none⟩ }

/-- R122 to R128, R130: MONTMUL on every pair of W-bit operands.  With m and u the values of stages 2 and 3, it
ends in the fatal state if u >= 2N and else writes the canonical residue. -/
def Obligations.MontmulOfAnyOperands : Prop :=
  ∀ (s s1 s2 : State) (d a b : RegIdx) (va vb : Nat), s.Inv → s.ctx.valid = true →
    s.readX a = (va, s1) → s1.readX b = (vb, s2) →
    let m := va * vb % 2 ^ s.ctx.k * s.ctx.nprime % 2 ^ s.ctx.k
    let u := (va * vb + m * s.ctx.n) / 2 ^ s.ctx.k
    (2 * s.ctx.n ≤ u → exec (.montmul d a b) s = .next { s2 with
      status := ⟨false, true, true, s.status.ovr, .invariantViolation⟩ }) ∧
    (u < 2 * s.ctx.n → exec (.montmul d a b) s = .next { s2 with
      x := s2.x.set d.val ⟨va * vb * s.ctx.rinv % s.ctx.n, fullMask s.cfg.W⟩
      status := ⟨false, true, s.status.fatal, s.status.ovr, .none⟩ })

/-- R131: when the fatal check is reached. -/
def Obligations.MontmulFatalExactlyAtTwoN : Prop :=
  ∀ (s s1 s2 : State) (d a b : RegIdx) (va vb : Nat), s.Inv → s.ctx.valid = true → s.status.fatal = false →
    s.readX a = (va, s1) → s1.readX b = (vb, s2) →
    let m := va * vb % 2 ^ s.ctx.k * s.ctx.nprime % 2 ^ s.ctx.k
    let u := (va * vb + m * s.ctx.n) / 2 ^ s.ctx.k
    ∃ t, exec (.montmul d a b) s = .next t ∧
      (va < s.ctx.n → vb < s.ctx.n →
        va * vb < s.ctx.n ^ 2 ∧ s.ctx.n ^ 2 < s.ctx.n * 2 ^ s.ctx.k ∧ m * s.ctx.n < 2 ^ s.ctx.k * s.ctx.n ∧
        va * vb + m * s.ctx.n < 2 * s.ctx.n * 2 ^ s.ctx.k ∧ u < 2 * s.ctx.n ∧ t.status.fatal = false) ∧
      (t.status.fatal = true ↔ 2 * s.ctx.n ≤ u) ∧
      (t.status.fatal = true →
        s.ctx.n * 2 ^ s.ctx.k + s.ctx.n ≤ va * vb ∧ (s.ctx.n ≤ va ∨ s.ctx.n ≤ vb))

/-- R129: every accepted context makes the division of stage 3 exact. -/
def Obligations.RedcDivisionIsExact : Prop :=
  ∀ (n : Nat) (c : Context), n % 2 = 1 → makeContext n = some c →
    c.n = n ∧ c.n * c.nprime % 2 ^ c.k = 2 ^ c.k - 1 ∧
    ∀ t, let m := t % 2 ^ c.k * c.nprime % 2 ^ c.k
      m * c.n % 2 ^ c.k = (2 ^ c.k - t % 2 ^ c.k) % 2 ^ c.k ∧ (t + m * c.n) % 2 ^ c.k = 0

/-- R133: the homomorphism sequence computes the modular product, with every completion ERR = 0.  The
rule's letters name distinct registers where the sequence needs it: E differs from B and from F. -/
def Obligations.HomomorphismSequence : Prop :=
  ∀ (s : State) (a b e f g : RegIdx) (va vb : Nat), s.Inv → s.ctx.valid = true →
    s.Holds a va → s.Holds b vb → va < s.ctx.n → vb < s.ctx.n → e ≠ b → e ≠ f →
    ∃ s1 s2 s3 s4,
      exec (.tomont e a) s = .next s1 ∧ exec (.tomont f b) s1 = .next s2 ∧
      exec (.montmul e e f) s2 = .next s3 ∧ exec (.frommont g e) s3 = .next s4 ∧
      s1.status.err = .none ∧ s2.status.err = .none ∧ s3.status.err = .none ∧ s4.status.err = .none ∧
      s4.Holds g (va * vb % s.ctx.n)

/-- R120, R130: whatever the operands, a result that is written lies in [0, N). -/
def Obligations.ResultsLieBelowTheModulus : Prop :=
  ∀ (s t : State) (d a b : RegIdx), s.Inv → s.ctx.valid = true →
    ∀ i ∈ [Instr.tomont d a, Instr.frommont d a, Instr.montmul d a b],
      exec i s = .next t → t.status.err = .none → ∃ y, y < s.ctx.n ∧ t.Holds d y

/-- R95, R96: the outcome of a command depends only on its source values and the context, not on which
registers hold them, which is the destination, or anything else in the state. -/
def Obligations.OutcomeDependsOnlyOnSourcesAndContext : Prop :=
  ∀ (s s' : State) (d a b d' a' b' : RegIdx) (va vb : Nat),
    s.cfg = s'.cfg → s.ctx = s'.ctx → s.Holds a va → s.Holds b vb → s'.Holds a' va → s'.Holds b' vb →
    ∀ p ∈ [(Instr.ctxinit a, Instr.ctxinit a'), (.tomont d a, .tomont d' a'), (.frommont d a, .frommont d' a'),
        (.montmul d a b, .montmul d' a' b')],
      ∃ t t', exec p.1 s = .next t ∧ exec p.2 s' = .next t' ∧
        t.status.err = t'.status.err ∧ t.ctx = t'.ctx ∧
        (t.status.err = .none → (∀ r, p.1 ≠ .ctxinit r) → t.reg d = t'.reg d')

/-- The frame of TOMONT, FROMMONT and MONTMUL (R47, R94): no register but rd, no context or control register
and no latch changes, OVR is kept, FATAL is kept but by MONTMUL, and outside STATUS and the window of
X[rd] every byte of the register window reads as before when nothing was drawn, which is so when the
sources were written. -/
def Obligations.ResultCommandsFrame : Prop :=
  ∀ (s t : State) (d a b : RegIdx), ∀ i ∈ [Instr.tomont d a, Instr.frommont d a, Instr.montmul d a b],
    exec i s = .next t →
      t = { s with x := t.x, status := t.status, draws := t.draws } ∧
      (∀ j, j ≠ d → t.reg j = s.reg j) ∧ t.status.ovr = s.status.ovr ∧
      (i ≠ .montmul d a b → t.status.fatal = s.status.fatal) ∧
      (∀ va vb, s.Holds a va → s.Holds b vb → t.draws = s.draws) ∧
      (t.draws = s.draws → ∀ q, q < 0x10000 → ¬ (0x0C ≤ q ∧ q < 0x10) →
        ¬ (0x8000 + 0x800 * d.val ≤ q ∧ q < 0x8000 + 0x800 * d.val + 0x800) →
        t.windowByte q = s.windowByte q)

/-! ### Operand registers -/

/-- R20, R22, in the model's form of it (log entry 2): a register every bit of which has been written reads as its
value and the read changes nothing; one unwritten since reset reads as the next free value, whatever that is, and the
next read of it takes a further one.  So does a host read of one of its words.  No read changes more than the count
of draws, and every value read is W bits wide. -/
def Obligations.RegisterReads : Prop :=
  (∀ (s : State) (i : RegIdx), (s.readX i).2 = { s with draws := (s.readX i).2.draws }) ∧
  (∀ (s : State) (i : RegIdx), (s.readX i).1 < 2 ^ s.cfg.W) ∧
  (∀ (s : State) (i : RegIdx) (v : Nat), s.Holds i v → s.readX i = (v, s)) ∧
  (∀ (s : State) (i : RegIdx), s.cfg.wf = true → (s.reg i).known = 0 →
    s.readX i = ((Config.freeValue s.draws).toNat % 2 ^ s.cfg.W, { s with draws := s.draws + 1 }) ∧
    (s.readX i).2.readX i =
      ((Config.freeValue (s.draws + 1)).toNat % 2 ^ s.cfg.W, { s with draws := s.draws + 2 }) ∧
    (∀ j, j < s.cfg.W / 32 → s.readXWord i j =
      (BitVec.ofNat 32 ((Config.freeValue s.draws).toNat / 2 ^ (32 * j)), { s with draws := s.draws + 1 })))

/-! ### The bus -/

/-- R56, R57: inside the window an access is admitted exactly when it is 4 bytes at a multiple of 4; any other
access is a bus error, taken as a fault, and an admitted one is answered. -/
def Obligations.UnadmittedAccessIsABusError : Prop :=
  ∀ (s : State) (a : Access) (rest : List Turn), s.schedule = .access a :: rest →
    s.cfg.base ≤ a.addr → a.addr < s.cfg.base + 0x10000 →
    (¬ (a.size = 4 ∧ a.addr % 4 = 0) → step s = .fault (.busError a.addr)) ∧
    (a.size = 4 ∧ a.addr % 4 = 0 → ∃ t, step s = .next t)

/-- R48 says the engine does not decode an address outside its window; that the model then stops the host
with a fault of its own is the model's choice, log entry 6. -/
def Obligations.AccessOutsideTheWindowIsNotDecoded : Prop :=
  ∀ (s : State) (a : Access) (rest : List Turn), s.schedule = .access a :: rest →
    (a.addr < s.cfg.base ∨ s.cfg.base + 0x10000 ≤ a.addr) → step s = .fault (.notDecoded a.addr)

/-- R27, R28: ID reads 0x4D4F4E54, and PARAM reads W, NREG and VERSION in their fields; writes are ignored. -/
def Obligations.IdentificationRegisters : Prop :=
  ∀ (s : State) (rest : List Turn), s.cfg.wf = true →
    (s.schedule = .access (.read s.cfg.base 4) :: rest →
      step s = .next { s with schedule := rest, resp := .readData 0x4D4F4E54#32 }) ∧
    (s.schedule = .access (.read (s.cfg.base + 0x004) 4) :: rest →
      ∃ w : Word, step s = .next { s with schedule := rest, resp := .readData w } ∧
        w.extractLsb' 0 16 = BitVec.ofNat 16 s.cfg.W ∧ w.extractLsb' 16 8 = 16#8 ∧ w.extractLsb' 24 8 = 0x01#8) ∧
    (∀ off v, (off = 0x000 ∨ off = 0x004) → s.schedule = .access (.write (s.cfg.base + off) 4 v) :: rest →
      step s = .next { s with schedule := rest, resp := .writeDone })

/-- R29: a write to CTRL sets IE to its bit 0, in every state, busy or fatal; a read gives IE in bit 0 and 0
above. -/
def Obligations.ControlRegister : Prop :=
  ∀ (s : State) (rest : List Turn), s.cfg.wf = true →
    (∀ v, s.schedule = .access (.write (s.cfg.base + 0x008) 4 v) :: rest →
      step s = .next { s with schedule := rest, ie := v.getLsbD 0, resp := .writeDone }) ∧
    (s.schedule = .access (.read (s.cfg.base + 0x008) 4) :: rest →
      ∃ w : Word, step s = .next { s with schedule := rest, resp := .readData w } ∧
        w.getLsbD 0 = s.ie ∧ ∀ k, 1 ≤ k → w.getLsbD k = false)

/-- R30, R33, R136: the numbers of the error codes, and the layout of STATUS as read; writes to it are ignored.
The turn taken and the answer are the model's own fields, log entry 4. -/
def Obligations.StatusRegisterLayout : Prop :=
  (ErrCode.code .none = 0 ∧ ErrCode.code .invalidModulus = 1 ∧ ErrCode.code .noContext = 2 ∧
    ErrCode.code .illegalCommand = 3 ∧ ErrCode.code .invariantViolation = 4) ∧
  ∀ (s : State) (rest : List Turn), s.cfg.wf = true →
    (s.schedule = .access (.read (s.cfg.base + 0x00C) 4) :: rest →
      ∃ w : Word, step s = .next { s with schedule := rest, resp := .readData w } ∧
        w.getLsbD 0 = s.status.busy ∧ w.getLsbD 1 = s.status.done ∧ w.getLsbD 2 = s.ctx.valid ∧
        w.getLsbD 3 = s.status.fatal ∧ w.getLsbD 4 = s.status.ovr ∧
        w.extractLsb' 5 3 = 0#3 ∧ w.extractLsb' 8 4 = BitVec.ofNat 4 s.status.err.code ∧
        w.extractLsb' 12 20 = 0#20) ∧
    (∀ v, s.schedule = .access (.write (s.cfg.base + 0x00C) 4 v) :: rest →
      step s = .next { s with schedule := rest, resp := .writeDone })

/-- R87: in the fatal state a CMD write changes no state. -/
def Obligations.CmdWriteIgnoredWhileFatal : Prop :=
  ∀ (s : State) (v : Word) (rest : List Turn), s.cfg.wf = true →
    s.schedule = .access (.write (s.cfg.base + 0x010) 4 v) :: rest → s.status.fatal = true →
    step s = .next { s with schedule := rest, resp := .writeDone }

/-- R88: while a command is in flight a CMD write is dropped and sets OVR; nothing else changes. -/
def Obligations.CmdWriteDroppedWhileBusy : Prop :=
  ∀ (s : State) (v : Word) (rest : List Turn), s.cfg.wf = true →
    s.schedule = .access (.write (s.cfg.base + 0x010) 4 v) :: rest →
    s.status.fatal = false → s.status.busy = true →
    step s = .next { s with
      schedule := rest, resp := .writeDone, status := { s.status with ovr := true } }

/-- R89: otherwise every CMD write is accepted, legal word or not. -/
def Obligations.CmdWriteAcceptedWhenIdle : Prop :=
  ∀ (s : State) (v : Word) (rest : List Turn), s.cfg.wf = true →
    s.schedule = .access (.write (s.cfg.base + 0x010) 4 v) :: rest →
    s.status.fatal = false → s.status.busy = false →
    step s = .next { s with
      schedule := rest, resp := .writeDone, cmdlatch := v, lastcmd := v
      status := ⟨true, false, false, s.status.ovr, .none⟩ }

/-- R38: a write to ACK with bit 0 = 1 clears DONE, OVR and, unless FATAL, ERR, busy or not; with bit 0 = 0 it
has no effect; ACK reads 0. -/
def Obligations.AckWrite : Prop :=
  ∀ (s : State) (rest : List Turn), s.cfg.wf = true →
    (∀ v : Word, s.schedule = .access (.write (s.cfg.base + 0x014) 4 v) :: rest →
      (v.getLsbD 0 = true → s.status.fatal = false →
        step s = .next { s with
          schedule := rest, resp := .writeDone, status := ⟨s.status.busy, false, false, false, .none⟩ }) ∧
      (v.getLsbD 0 = true → s.status.fatal = true →
        step s = .next { s with
          schedule := rest, resp := .writeDone, status := ⟨s.status.busy, false, true, false, s.status.err⟩ }) ∧
      (v.getLsbD 0 = false → step s = .next { s with schedule := rest, resp := .writeDone })) ∧
    (s.schedule = .access (.read (s.cfg.base + 0x014) 4) :: rest →
      step s = .next { s with schedule := rest, resp := .readData 0 })

/-- R37, R39, R40: LASTCMD reads the word most recently accepted, CTXK reads K in its low half, CMD reads 0; writes
to LASTCMD and CTXK are ignored. -/
def Obligations.LastcmdAndCtxkReads : Prop :=
  ∀ (s : State) (rest : List Turn), s.Inv →
    (s.schedule = .access (.read (s.cfg.base + 0x01C) 4) :: rest →
      step s = .next { s with schedule := rest, resp := .readData s.lastcmd }) ∧
    (s.schedule = .access (.read (s.cfg.base + 0x018) 4) :: rest →
      ∃ w : Word, step s = .next { s with schedule := rest, resp := .readData w } ∧ w.toNat = s.ctx.k) ∧
    (s.schedule = .access (.read (s.cfg.base + 0x010) 4) :: rest →
      step s = .next { s with schedule := rest, resp := .readData 0 }) ∧
    (∀ off v, (off = 0x018 ∨ off = 0x01C) → s.schedule = .access (.write (s.cfg.base + off) 4 v) :: rest →
      step s = .next { s with schedule := rest, resp := .writeDone })

/-- R52, R53: a read of word j of X[i]'s window gives bits [32*j+31 : 32*j] for j < L and 0 from L on, busy or
not (R62), and changes nothing but the answer. -/
def Obligations.XWindowRead : Prop :=
  ∀ (s : State) (i : RegIdx) (j v : Nat) (rest : List Turn), s.cfg.wf = true → j < 512 → s.Holds i v →
    s.schedule = .access (.read (s.cfg.base + 0x8000 + 0x800 * i.val + 4 * j) 4) :: rest →
    (j < s.cfg.W / 32 → step s = .next { s with
      schedule := rest, resp := .readData (BitVec.ofNat 32 (v / 2 ^ (32 * j))) }) ∧
    (s.cfg.W / 32 ≤ j → step s = .next { s with schedule := rest, resp := .readData 0 })

/-- R52, R53: the context windows read N, RINV and NPRIME in the same layout, and writes to them are
ignored. -/
def Obligations.ContextWindows : Prop :=
  ∀ (s : State) (j : Nat) (rest : List Turn), s.cfg.wf = true → j < 512 →
    ∀ p ∈ [(0x0800, s.ctx.n), (0x1000, s.ctx.rinv), (0x1800, s.ctx.nprime)],
      (s.schedule = .access (.read (s.cfg.base + p.1 + 4 * j) 4) :: rest →
        (j < s.cfg.W / 32 → step s = .next { s with
          schedule := rest, resp := .readData (BitVec.ofNat 32 (p.2 / 2 ^ (32 * j))) }) ∧
        (s.cfg.W / 32 ≤ j → step s = .next { s with schedule := rest, resp := .readData 0 })) ∧
      (∀ v, s.schedule = .access (.write (s.cfg.base + p.1 + 4 * j) 4 v) :: rest →
        step s = .next { s with schedule := rest, resp := .writeDone })

/-- R53: while BUSY = 0 a write of word j < L of X[i] replaces bits [32*j+31 : 32*j] and no other bit, and writes
no other register; a write of a word from L on is ignored.  `known` says which bits have been written
since reset (R22). -/
def Obligations.XWindowWrite : Prop :=
  ∀ (s : State) (i : RegIdx) (j : Nat) (v : Word) (rest : List Turn), s.Inv → j < 512 →
    s.schedule = .access (.write (s.cfg.base + 0x8000 + 0x800 * i.val + 4 * j) 4 v) :: rest →
    s.status.busy = false →
    (s.cfg.W / 32 ≤ j → step s = .next { s with schedule := rest, resp := .writeDone }) ∧
    (j < s.cfg.W / 32 → ∃ t, step s = .next t ∧
      t = { s with schedule := rest, resp := .writeDone, x := t.x } ∧
      (∀ k, k ≠ i → t.reg k = s.reg k) ∧
      (∀ b, (t.reg i).value.testBit b =
        if 32 * j ≤ b ∧ b < 32 * j + 32 then v.getLsbD (b - 32 * j) else (s.reg i).value.testBit b) ∧
      (∀ b, (t.reg i).known.testBit b = (decide (32 * j ≤ b ∧ b < 32 * j + 32) || (s.reg i).known.testBit b)))

/-- R53, R63: a word of an operand register reads back as written, whatever the register held before. -/
def Obligations.XWordReadsBackAsWritten : Prop :=
  ∀ (s : State) (i : RegIdx) (j : Nat) (v : Word) (rest : List Turn), s.Inv → j < s.cfg.W / 32 →
    s.status.busy = false →
    s.schedule = .access (.write (s.cfg.base + 0x8000 + 0x800 * i.val + 4 * j) 4 v) ::
      .access (.read (s.cfg.base + 0x8000 + 0x800 * i.val + 4 * j) 4) :: rest →
    ∃ t, core.run 2 s = .next t ∧ t.resp = .readData v

/-- R16, R52, R53: the L word writes of `WRX i, v`, made while no command is in flight, leave the value v in X[i],
whatever it held before, and change no other register. -/
def Obligations.HostWrxWritesTheRegister : Prop :=
  ∀ (s : State) (i : RegIdx) (v : Nat) (rest : List Turn), s.Inv → s.status.busy = false → v < 2 ^ s.cfg.W →
    s.schedule = hostWRX s.cfg i v ++ rest →
    ∃ t, core.run (s.cfg.W / 32) s = .next t ∧ t.Holds i v ∧ (∀ k, k ≠ i → t.reg k = s.reg k) ∧
      t = { s with schedule := rest, resp := t.resp, x := t.x }

/-- R59: while BUSY = 1 a write of any word of an X window, also from L on, is dropped and sets OVR. -/
def Obligations.XWriteDroppedWhileBusy : Prop :=
  ∀ (s : State) (i : RegIdx) (j : Nat) (v : Word) (rest : List Turn), s.cfg.wf = true → j < 512 →
    s.schedule = .access (.write (s.cfg.base + 0x8000 + 0x800 * i.val + 4 * j) 4 v) :: rest →
    s.status.busy = true →
    step s = .next { s with
      schedule := rest, resp := .writeDone, status := { s.status with ovr := true } }

/-- R58: an admitted read of a reserved offset, a write-only register or a window word from L on returns 0; an admitted
write of a reserved offset, a read-only register or a context window is ignored; the reserved bits of CTRL read 0 and
ignore writes. -/
def Obligations.ReservedSpace : Prop :=
  ∀ (s : State) (off : Nat) (rest : List Turn), s.cfg.wf = true → off < 0x10000 → off % 4 = 0 →
    let isReserved := (0x0020 ≤ off ∧ off < 0x0800) ∨ (0x2000 ≤ off ∧ off < 0x8000)
    let inCtx := 0x0800 ≤ off ∧ off < 0x2000
    let beyond := (inCtx ∨ 0x8000 ≤ off) ∧ s.cfg.W / 32 ≤ off % 0x800 / 4
    (isReserved ∨ off = 0x010 ∨ off = 0x014 ∨ beyond →
      s.schedule = .access (.read (s.cfg.base + off) 4) :: rest →
      step s = .next { s with schedule := rest, resp := .readData 0 }) ∧
    (isReserved ∨ off ∈ [0x000, 0x004, 0x00C, 0x018, 0x01C] ∨ inCtx →
      ∀ v, s.schedule = .access (.write (s.cfg.base + off) 4 v) :: rest →
      step s = .next { s with schedule := rest, resp := .writeDone }) ∧
    (∀ v w : Word, v.getLsbD 0 = w.getLsbD 0 → s.writeCtrl v = s.writeCtrl w) ∧
    (∀ k, 1 ≤ k → s.ctrlWord.getLsbD k = false)

/-- R60: a read has no side effect.  It changes nothing but the answer and the model's count of draws; when no
register is unspecified it draws nothing, and the same read again gives the same word. -/
def Obligations.ReadsHaveNoSideEffect : Prop :=
  ∀ (s : State) (addr : Nat) (rest : List Turn), (Access.read addr 4).inWindow s.cfg = true → addr % 4 = 0 →
    s.schedule = .access (.read addr 4) :: .access (.read addr 4) :: rest →
    ∃ t w, step s = .next t ∧
      t = { s with schedule := .access (.read addr 4) :: rest, resp := .readData w, draws := t.draws } ∧
      ((∀ i, ∃ v, s.Holds i v) →
        t.draws = s.draws ∧ step t = .next { s with schedule := rest, resp := .readData w })

/-- R54: a register's image in its window is its little-endian byte string: byte q is bits [8*q+7 : 8*q]. -/
def Obligations.LittleEndianByteImage : Prop :=
  ∀ (s : State) (i : RegIdx) (v q : Nat), s.cfg.wf = true → s.Holds i v → q < s.cfg.W / 8 →
    s.windowByte (0x8000 + 0x800 * i.val + q) = BitVec.ofNat 8 (v / 2 ^ (8 * q)) ∧
    s.windowByte (0x0800 + q) = BitVec.ofNat 8 (s.ctx.n / 2 ^ (8 * q)) ∧
    s.windowByte (0x1000 + q) = BitVec.ofNat 8 (s.ctx.rinv / 2 ^ (8 * q)) ∧
    s.windowByte (0x1800 + q) = BitVec.ofNat 8 (s.ctx.nprime / 2 ^ (8 * q))

/-- R45, R150: irq is IE and DONE: with IE = 1 every completion raises it; an ACK with bit 0 = 1 and an
accepted CMD write lower it, and so does reset. -/
def Obligations.InterruptOutput : Prop :=
  (∀ s : State, s.irq = (s.ie && s.status.done)) ∧
  (∀ s t : State, s.status.busy = true → engineTurn s = .next t → t.irq = s.ie) ∧
  (∀ (s : State) (v : Word), v.getLsbD 0 = true → (s.writeAck v).irq = false) ∧
  (∀ (s : State) (v : Word), s.status.fatal = false → s.status.busy = false → (s.writeCmd v).irq = false) ∧
  (∀ s : State, s.resetEvent.irq = false)

/-! ### Reset -/

/-- R46, R157: the reset event, from any state: every piece of state takes its reset value, an operand register
is unspecified in every bit, and whatever CMDLATCH then holds has no effect, because BUSY = 0. -/
def Obligations.ResetEventValues : Prop :=
  ∀ (s : State) (rest : List Turn), s.schedule = .reset :: rest →
    ∃ t, step s = .next t ∧ t.cfg = s.cfg ∧ t.schedule = rest ∧
      (∀ i, (t.reg i).known = 0) ∧
      t.ctx.n = 0 ∧ t.ctx.k = 0 ∧ t.ctx.rinv = 0 ∧ t.ctx.nprime = 0 ∧ t.ctx.valid = false ∧
      t.ie = false ∧ t.status = ⟨false, false, false, false, .none⟩ ∧ t.lastcmd = 0 ∧ t.irq = false ∧
      (∀ w, engineTurn { t with cmdlatch := w } = .next { t with cmdlatch := w }) ∧
      t.readLoc .id = (0x4D4F4E54#32, t) ∧ t.readLoc .param = (paramWord s.cfg, t)

/-- R46, R158: the state right after reset, for every parameter setting, has those values too, and its first host
access can issue a command. -/
def Obligations.StateAfterReset : Prop :=
  (∀ c : Config, (∀ i, ((State.resetWith c).reg i).known = 0) ∧
    (State.resetWith c).ctx = ⟨0, 0, 0, 0, false⟩ ∧ (State.resetWith c).ie = false ∧
    (State.resetWith c).status = ⟨false, false, false, false, .none⟩ ∧ (State.resetWith c).lastcmd = 0 ∧
    ∀ v, (State.resetWith c).writeCmd v = (State.resetWith c).accept v) ∧
  State.reset = State.resetWith Config.chosen

/-! ### Invariants and rules about the whole machine -/

/-- The invariant holds after reset, for all legal parameters. -/
def Obligations.InvariantHoldsAfterReset : Prop :=
  (∀ c : Config, c.wf = true → (State.resetWith c).Inv) ∧ State.reset.Inv

/-- R31, R32, R36, R43, R44 and the canonical form of the registers: every step, of host, engine or reset,
keeps the invariant. -/
def Obligations.EveryStepKeepsInvariant : Prop :=
  ∀ s t : State, s.Inv → step s = .next t → t.Inv

/-- R34, R143: the fatal state is left only by reset.  Every other step keeps FATAL, ERR = 4, BUSY = 0, the context
and LASTCMD. -/
def Obligations.FatalStateIsSticky : Prop :=
  ∀ s t : State, s.Inv → s.status.fatal = true → (∀ rest, s.schedule ≠ .reset :: rest) → step s = .next t →
    t.status.fatal = true ∧ t.status.err.code = 4 ∧ t.status.busy = false ∧ t.ctx = s.ctx ∧ t.lastcmd = s.lastcmd

/-- R144: the fatal state is entered only by a MONTMUL with an operand at or above N. -/
def Obligations.FatalOnlyByMontmulOutOfRange : Prop :=
  ∀ s t : State, s.Inv → s.status.fatal = false → step s = .next t → t.status.fatal = true →
    ∃ d a b, s.status.busy = true ∧ decode s.cmdlatch = .cmd (.montmul d a b) ∧ s.ctx.valid = true ∧
      (s.ctx.n ≤ (s.readX a).1 ∨ s.ctx.n ≤ ((s.readX a).2.readX b).1)

/-- R24: between two successful constructions no step but reset changes a context register; the step that does is
the completion, in the engine's turn.  The schedule's form is the model's choice, log entry 4. -/
def Obligations.ContextWrittenOnlyByCtxinit : Prop :=
  ∀ s t : State, step s = .next t → t.ctx ≠ s.ctx →
    (∃ rest, s.schedule = .reset :: rest) ∨
    ((s.schedule = [] ∨ ∃ rest, s.schedule = .engine :: rest) ∧ s.status.busy = true ∧ t.status.busy = false ∧
      (∃ r, decode s.cmdlatch = .cmd (.ctxinit r)) ∧ t.status.err = .none ∧ t.ctx.valid = true)

/-- R20, R47: who writes an operand register: the host through its window while BUSY = 0, the completion, in the
engine's turn, with ERR = 0 of a command that names it as rd, or reset.  The schedule's form is the model's choice, log
entry 4. -/
def Obligations.RegisterWriters : Prop :=
  ∀ (s t : State) (i : RegIdx), step s = .next t → t.reg i ≠ s.reg i →
    (∃ rest, s.schedule = .reset :: rest) ∨
    (∃ addr v rest, s.schedule = .access (.write addr 4 v) :: rest ∧ s.status.busy = false ∧
      s.cfg.base + 0x8000 + 0x800 * i.val ≤ addr ∧ addr < s.cfg.base + 0x8000 + 0x800 * i.val + 0x800) ∨
    ((s.schedule = [] ∨ ∃ rest, s.schedule = .engine :: rest) ∧ s.status.busy = true ∧ t.status.busy = false ∧
      t.status.err = .none ∧ ∃ a b, decode s.cmdlatch = .cmd (.tomont i a) ∨
      decode s.cmdlatch = .cmd (.frommont i a) ∨ decode s.cmdlatch = .cmd (.montmul i a b))

/-- R47: who writes CTRL, LASTCMD and CMDLATCH; the parameters are never written. -/
def Obligations.ControlAndLatchWriters : Prop :=
  ∀ s t : State, step s = .next t → (∀ rest, s.schedule ≠ .reset :: rest) →
    t.cfg = s.cfg ∧
    (t.ie ≠ s.ie → ∃ v rest, s.schedule = .access (.write (s.cfg.base + 0x008) 4 v) :: rest) ∧
    (t.lastcmd ≠ s.lastcmd ∨ t.cmdlatch ≠ s.cmdlatch →
      ∃ v rest, s.schedule = .access (.write (s.cfg.base + 0x010) 4 v) :: rest ∧ t.lastcmd = v ∧ t.cmdlatch = v ∧
        s.status.busy = false ∧ s.status.fatal = false)

/-- R30, R35 (with R59 for the writes of X windows, log entry 8): BUSY, DONE, OVR and ERR are set, cleared and changed
only by the events of R30's table.  The schedule's form is the model's choice, log entry 4. -/
def Obligations.StatusFlagWriters : Prop :=
  ∀ s t : State, step s = .next t → (∀ rest, s.schedule ≠ .reset :: rest) →
    let accepted := s.status.busy = false ∧ s.status.fatal = false ∧
      ∃ v rest, s.schedule = .access (.write (s.cfg.base + 0x010) 4 v) :: rest
    let acked := ∃ v rest, s.schedule = .access (.write (s.cfg.base + 0x014) 4 v) :: rest ∧ v.getLsbD 0 = true
    let completed := s.status.busy = true ∧ t.status.busy = false ∧
      (s.schedule = [] ∨ ∃ rest, s.schedule = .engine :: rest)
    (s.status.busy = false → t.status.busy = true → accepted) ∧
    (s.status.busy = true → t.status.busy = false → completed ∧ t.status.done = true) ∧
    (s.status.done = false → t.status.done = true → completed) ∧
    (s.status.done = true → t.status.done = false → accepted ∨ acked) ∧
    (s.status.ovr = false → t.status.ovr = true → s.status.busy = true ∧
      ∃ addr v rest, s.schedule = .access (.write addr 4 v) :: rest ∧
        (addr = s.cfg.base + 0x010 ∨ s.cfg.base + 0x8000 ≤ addr)) ∧
    (s.status.ovr = true → t.status.ovr = false → acked) ∧
    (t.status.err ≠ s.status.err →
      completed ∨ (accepted ∧ t.status.err = .none) ∨ (acked ∧ s.status.fatal = false ∧ t.status.err = .none))
end

