-- ==== Sys2Proof/Laws/Arith.lean ====
section
/-! SUPPORT. The arithmetic of the rules: bit length, the inverse of a power of two, the context of an odd
modulus, and the REDC stages (spec 00_scope.md R13; 41_ctxinit.md R101 to R111; 43_montmul.md R122 to R131). -/

namespace Sys2Proof.Machine

theorem bitlen_bounds {a : Nat} (h : a ≠ 0) : 2 ^ (bitlen a - 1) ≤ a ∧ a < 2 ^ bitlen a := by
  simp only [bitlen, h, if_false, Nat.add_sub_cancel]
  exact ⟨Nat.log2_self_le h, Nat.lt_log2_self⟩

theorem bitlen_pos {a : Nat} (h : a ≠ 0) : 1 ≤ bitlen a := by simp [bitlen, h]

theorem bitlen_le {a W : Nat} (h : a < 2 ^ W) : bitlen a ≤ W := by
  unfold bitlen
  split
  · exact Nat.zero_le _
  · rename_i ha
    exact Nat.succ_le_of_lt ((Nat.log2_lt ha).2 h)

theorem lt_two_pow_bitlen (a : Nat) : a < 2 ^ bitlen a := by
  by_cases h : a = 0
  · subst h; simp [bitlen]
  · exact (bitlen_bounds h).2

theorem halveMod_lt {n x : Nat} (h : x < n) : halveMod n x < n := by
  unfold halveMod; split <;> omega

theorem two_mul_halveMod_mod {n x : Nat} (hn : n % 2 = 1) : 2 * halveMod n x % n = x % n := by
  unfold halveMod
  split
  · rw [show 2 * (x / 2) = x by omega]
  · rw [show 2 * ((x + n) / 2) = x + n by omega, Nat.add_mod_right]

theorem invTwoPow_lt {n : Nat} (hn : n % 2 = 1) (k : Nat) : invTwoPow k n < n := by
  induction k with
  | zero => exact Nat.mod_lt _ (by omega)
  | succ k ih => exact halveMod_lt ih

/-- R102: the value computed is the inverse of 2^k modulo an odd n. -/
theorem two_pow_mul_invTwoPow_mod {n : Nat} (hn : n % 2 = 1) (k : Nat) :
    2 ^ k * invTwoPow k n % n = 1 % n := by
  induction k with
  | zero => simp [invTwoPow]
  | succ k ih =>
    rw [invTwoPow, pow_succ, mul_assoc, Nat.mul_mod, two_mul_halveMod_mod hn, ← Nat.mul_mod, ih]

/-- R13: the inverse in [0, n) is unique. -/
theorem inverse_unique {n a x y : Nat} (hx : x < n) (hy : y < n)
    (h1 : a * x % n = 1 % n) (h2 : a * y % n = 1 % n) : x = y := by
  have e : x * (a * y) ≡ y * (a * x) [MOD n] := by rw [show x * (a * y) = y * (a * x) by ring]
  have e1 : x * (a * y) ≡ x * 1 [MOD n] := Nat.ModEq.mul_left x h2
  have e2 : y * (a * x) ≡ y * 1 [MOD n] := Nat.ModEq.mul_left y h1
  have : x ≡ y [MOD n] := by simpa using (e1.symm.trans e).trans e2
  simpa [Nat.ModEq, Nat.mod_eq_of_lt hx, Nat.mod_eq_of_lt hy] using this

/-- R101 to R104, R43: an odd modulus has a context, and it is sound. -/
theorem makeContext_sound {n W : Nat} (hn : n % 2 = 1) (hW : n < 2 ^ W) :
    ∃ c, makeContext n = some c ∧ c.n = n ∧ c.valid = true ∧ c.Sound W := by
  have hlt := invTwoPow_lt hn (bitlen n)
  have hinv := two_pow_mul_invTwoPow_mod hn (bitlen n)
  have hk := lt_two_pow_bitlen n
  generalize hR : invTwoPow (bitlen n) n = r at hlt hinv
  by_cases h1 : n = 1
  · subst h1
    exact ⟨⟨1, 1, 0, 1, true⟩, by decide, rfl, rfl, by decide, hW, by decide, by decide, by decide, by decide,
      by decide, fun h => absurd h (by decide)⟩
  · have hn1 : 1 % n = 1 := Nat.mod_eq_of_lt (by omega)
    rw [hn1] at hinv
    generalize hK : bitlen n = k at *
    have hpos : 0 < n := by omega
    have hq := Nat.div_add_mod (2 ^ k * r) n
    rw [hinv] at hq
    generalize hQ : 2 ^ k * r / n = q at hq
    have hr : 1 ≤ r := by
      rcases Nat.eq_zero_or_pos r with h | h
      · subst h; simp at hq
      · exact h
    have hnum : ((2 ^ k * r : Nat) : Int) - 1 = (n : Int) * (q : Int) := by
      rw [← hq]; push_cast; ring
    have hlt2 : n * q < n * 2 ^ k := by
      have : 2 ^ k * r ≤ 2 ^ k * (n - 1) := Nat.mul_le_mul_left _ (by omega)
      have h2 : 2 ^ k * (n - 1) + 2 ^ k = n * 2 ^ k := by
        obtain ⟨m, rfl⟩ : ∃ m, n = m + 1 := ⟨n - 1, by omega⟩
        simp; ring
      have := Nat.two_pow_pos k
      omega
    have hqlt : q < 2 ^ k := Nat.lt_of_mul_lt_mul_left hlt2
    refine ⟨⟨n, k, r, q, true⟩, ?_, rfl, rfl, ?_⟩
    · have hdiv : ((n : Int) * (q : Int)) / (n : Int) = (q : Int) :=
        Int.mul_ediv_cancel_left _ (by omega)
      have hmod : ((q : Int) % ((2 ^ k : Nat) : Int)) = (q : Int) := by
        exact_mod_cast Nat.mod_eq_of_lt hqlt
      simp only [makeContext, hK, hR, hnum, hdiv, hmod]
      simp
    · refine ⟨hn, hW, hK.symm, hlt, by rw [hn1]; exact hinv, hqlt, ?_, fun _ => hq.symm⟩
      show n * q % 2 ^ k = 2 ^ k - 1
      obtain ⟨r', rfl⟩ : ∃ r', r = r' + 1 := ⟨r - 1, by omega⟩
      have h2k := Nat.two_pow_pos k
      have : n * q = 2 ^ k * r' + (2 ^ k - 1) := by
        have : 2 ^ k * (r' + 1) = 2 ^ k * r' + 2 ^ k := by ring
        omega
      rw [this, Nat.mul_add_mod, Nat.mod_eq_of_lt (by omega)]

section Redc

variable {W : Nat} {c : Context}

theorem Context.Sound.n_pos (h : c.Sound W) : 0 < c.n := by have := h.1; omega

theorem Context.Sound.n_lt (h : c.Sound W) : c.n < 2 ^ c.k := by
  rw [h.2.2.1]; exact lt_two_pow_bitlen _

theorem Context.Sound.k_le (h : c.Sound W) : c.k ≤ W := by
  rw [h.2.2.1]; exact bitlen_le h.2.1

theorem Context.Sound.rinv_mod (h : c.Sound W) : 2 ^ c.k * c.rinv % c.n = 1 % c.n := h.2.2.2.2.1

/-- R129: t + m*N is divisible by R. -/
theorem redc_divides (h : c.Sound W) (t : Nat) : 2 ^ c.k ∣ t + redcM c t * c.n := by
  have hnp := h.2.2.2.2.2.2.1
  have hR := Nat.two_pow_pos c.k
  have h1 : c.n * c.nprime + 1 ≡ 0 [MOD 2 ^ c.k] := by
    rw [Nat.ModEq, Nat.add_mod, hnp]
    rcases Nat.lt_or_ge 1 (2 ^ c.k) with h | h
    · rw [Nat.mod_eq_of_lt h, Nat.sub_add_cancel hR]; simp
    · have : 2 ^ c.k = 1 := by omega
      rw [this]
  have hm : redcM c t * c.n ≡ t * c.nprime * c.n [MOD 2 ^ c.k] := by
    unfold redcM low
    exact ((Nat.mod_modEq _ _).trans ((Nat.mod_modEq t _).mul_right _)).mul_right _
  have : t + redcM c t * c.n ≡ 0 [MOD 2 ^ c.k] := by
    calc t + redcM c t * c.n ≡ t + t * c.nprime * c.n [MOD 2 ^ c.k] := hm.add_left t
      _ = t * (c.n * c.nprime + 1) := by ring
      _ ≡ t * 0 [MOD 2 ^ c.k] := h1.mul_left t
      _ = 0 := by simp
  exact (Nat.modEq_zero_iff_dvd).1 this

/-- R124: the shift of stage 3 is an exact division. -/
theorem redcU_mul (h : c.Sound W) (t : Nat) : redcU c t * 2 ^ c.k = t + redcM c t * c.n := by
  unfold redcU
  rw [Nat.shiftRight_eq_div_pow]
  exact Nat.div_mul_cancel (redc_divides h t)

/-- R130: before and after stage 4 the value is congruent to t * RINV. -/
theorem redcU_modEq (h : c.Sound W) (t : Nat) : redcU c t ≡ t * c.rinv [MOD c.n] := by
  have h1 : redcU c t * 2 ^ c.k ≡ t [MOD c.n] := by
    rw [redcU_mul h]; simp [Nat.ModEq]
  have h2 : 2 ^ c.k * c.rinv ≡ 1 [MOD c.n] := h.rinv_mod
  calc redcU c t = redcU c t * 1 := by simp
    _ ≡ redcU c t * (2 ^ c.k * c.rinv) [MOD c.n] := h2.symm.mul_left _
    _ = redcU c t * 2 ^ c.k * c.rinv := by ring
    _ ≡ t * c.rinv [MOD c.n] := h1.mul_right _

theorem redcM_lt (c : Context) (t : Nat) : redcM c t < 2 ^ c.k := Nat.mod_lt _ (Nat.two_pow_pos _)

/-- R131: for a product below N * R the value before stage 4 is below 2N. -/
theorem redcU_lt (h : c.Sound W) {t : Nat} (ht : t < c.n * 2 ^ c.k) : redcU c t < 2 * c.n := by
  have h1 := redcU_mul h t
  have h2 : redcM c t * c.n < 2 ^ c.k * c.n := Nat.mul_lt_mul_of_pos_right (redcM_lt c t) h.n_pos
  have : redcU c t * 2 ^ c.k < 2 * c.n * 2 ^ c.k := by
    have e : 2 * c.n * 2 ^ c.k = c.n * 2 ^ c.k + 2 ^ c.k * c.n := by ring
    omega
  exact Nat.lt_of_mul_lt_mul_right this

/-- R126, R130, R131: what the pipeline answers, for every pair of operands. -/
theorem redc_eq (h : c.Sound W) (a b : Nat) :
    redc c a b = if 2 * c.n ≤ redcU c (a * b) then none else some (a * b * c.rinv % c.n) := by
  have hm := redcU_modEq h (a * b)
  have hp := h.n_pos
  unfold redc redcCorrect
  generalize redcU c (a * b) = u at hm ⊢
  by_cases h1 : c.n ≤ u
  · by_cases h2 : 2 * c.n ≤ u
    · simp only [h1, h2, if_true]; rw [if_pos (by omega)]
    · simp only [h1, h2, if_true, if_false]; rw [if_neg (by omega)]
      have : (u - c.n) % c.n = a * b * c.rinv % c.n := by
        rw [← Nat.mod_eq_sub_mod h1]; exact hm
      rw [← this, Nat.mod_eq_of_lt (by omega)]
  · rw [if_neg h1, if_neg h1, if_neg (by omega), ← show u % c.n = a * b * c.rinv % c.n from hm,
      Nat.mod_eq_of_lt (by omega)]

/-- R131: operands below N never reach stage 5. -/
theorem redc_in_domain (h : c.Sound W) {a b : Nat} (ha : a < c.n) (hb : b < c.n) :
    redc c a b = some (a * b * c.rinv % c.n) := by
  have ht : a * b < c.n * 2 ^ c.k :=
    Nat.mul_lt_mul'' ha (Nat.lt_trans hb h.n_lt)
  rw [redc_eq h, if_neg (Nat.not_le.2 (redcU_lt h ht))]

end Redc

end Sys2Proof.Machine
end

