-- ==== Sys2Proof/Laws/State.lean ====
section
/-! SUPPORT. One lemma per field per update of the state, true by rfl, and the register file's read after
write. -/

namespace Sys2Proof.Machine

section setReg
variable (s : State) (i : RegIdx) (r : XReg)

@[simp] theorem State.setReg_cfg : (s.setReg i r).cfg = s.cfg := rfl
@[simp] theorem State.setReg_x : (s.setReg i r).x = s.x.set i.val r := rfl
@[simp] theorem State.setReg_ctx : (s.setReg i r).ctx = s.ctx := rfl
@[simp] theorem State.setReg_ie : (s.setReg i r).ie = s.ie := rfl
@[simp] theorem State.setReg_status : (s.setReg i r).status = s.status := rfl
@[simp] theorem State.setReg_lastcmd : (s.setReg i r).lastcmd = s.lastcmd := rfl
@[simp] theorem State.setReg_cmdlatch : (s.setReg i r).cmdlatch = s.cmdlatch := rfl
@[simp] theorem State.setReg_draws : (s.setReg i r).draws = s.draws := rfl
@[simp] theorem State.setReg_schedule : (s.setReg i r).schedule = s.schedule := rfl
@[simp] theorem State.setReg_resp : (s.setReg i r).resp = s.resp := rfl

end setReg

section complete
variable (s : State) (e : ErrCode)

@[simp] theorem State.complete_cfg : (s.complete e).cfg = s.cfg := rfl
@[simp] theorem State.complete_x : (s.complete e).x = s.x := rfl
@[simp] theorem State.complete_ctx : (s.complete e).ctx = s.ctx := rfl
@[simp] theorem State.complete_ie : (s.complete e).ie = s.ie := rfl
@[simp] theorem State.complete_status : (s.complete e).status = ⟨false, true, s.status.fatal, s.status.ovr, e⟩ := rfl
@[simp] theorem State.complete_lastcmd : (s.complete e).lastcmd = s.lastcmd := rfl
@[simp] theorem State.complete_cmdlatch : (s.complete e).cmdlatch = s.cmdlatch := rfl
@[simp] theorem State.complete_draws : (s.complete e).draws = s.draws := rfl
@[simp] theorem State.complete_schedule : (s.complete e).schedule = s.schedule := rfl
@[simp] theorem State.complete_resp : (s.complete e).resp = s.resp := rfl

end complete

section raiseFatal
variable (s : State) (e : ErrCode)

@[simp] theorem State.raiseFatal_cfg : (s.raiseFatal e).cfg = s.cfg := rfl
@[simp] theorem State.raiseFatal_x : (s.raiseFatal e).x = s.x := rfl
@[simp] theorem State.raiseFatal_ctx : (s.raiseFatal e).ctx = s.ctx := rfl
@[simp] theorem State.raiseFatal_ie : (s.raiseFatal e).ie = s.ie := rfl
@[simp] theorem State.raiseFatal_status : (s.raiseFatal e).status = ⟨false, true, true, s.status.ovr, e⟩ := rfl
@[simp] theorem State.raiseFatal_lastcmd : (s.raiseFatal e).lastcmd = s.lastcmd := rfl
@[simp] theorem State.raiseFatal_cmdlatch : (s.raiseFatal e).cmdlatch = s.cmdlatch := rfl
@[simp] theorem State.raiseFatal_draws : (s.raiseFatal e).draws = s.draws := rfl
@[simp] theorem State.raiseFatal_schedule : (s.raiseFatal e).schedule = s.schedule := rfl
@[simp] theorem State.raiseFatal_resp : (s.raiseFatal e).resp = s.resp := rfl

end raiseFatal

section accept
variable (s : State) (v : Word)

@[simp] theorem State.accept_cfg : (s.accept v).cfg = s.cfg := rfl
@[simp] theorem State.accept_x : (s.accept v).x = s.x := rfl
@[simp] theorem State.accept_ctx : (s.accept v).ctx = s.ctx := rfl
@[simp] theorem State.accept_ie : (s.accept v).ie = s.ie := rfl
@[simp] theorem State.accept_status : (s.accept v).status = ⟨true, false, s.status.fatal, s.status.ovr, .none⟩ := rfl
@[simp] theorem State.accept_lastcmd : (s.accept v).lastcmd = v := rfl
@[simp] theorem State.accept_cmdlatch : (s.accept v).cmdlatch = v := rfl
@[simp] theorem State.accept_draws : (s.accept v).draws = s.draws := rfl
@[simp] theorem State.accept_schedule : (s.accept v).schedule = s.schedule := rfl
@[simp] theorem State.accept_resp : (s.accept v).resp = s.resp := rfl

end accept

section writeCtrl
variable (s : State) (v : Word)

@[simp] theorem State.writeCtrl_cfg : (s.writeCtrl v).cfg = s.cfg := rfl
@[simp] theorem State.writeCtrl_x : (s.writeCtrl v).x = s.x := rfl
@[simp] theorem State.writeCtrl_ctx : (s.writeCtrl v).ctx = s.ctx := rfl
@[simp] theorem State.writeCtrl_ie : (s.writeCtrl v).ie = v.getLsbD 0 := rfl
@[simp] theorem State.writeCtrl_status : (s.writeCtrl v).status = s.status := rfl
@[simp] theorem State.writeCtrl_lastcmd : (s.writeCtrl v).lastcmd = s.lastcmd := rfl
@[simp] theorem State.writeCtrl_cmdlatch : (s.writeCtrl v).cmdlatch = s.cmdlatch := rfl
@[simp] theorem State.writeCtrl_draws : (s.writeCtrl v).draws = s.draws := rfl
@[simp] theorem State.writeCtrl_schedule : (s.writeCtrl v).schedule = s.schedule := rfl
@[simp] theorem State.writeCtrl_resp : (s.writeCtrl v).resp = s.resp := rfl

end writeCtrl

section resetEvent
variable (s : State) 

@[simp] theorem State.resetEvent_cfg : (s.resetEvent).cfg = s.cfg := rfl
@[simp] theorem State.resetEvent_x : (s.resetEvent).x = Vector.replicate 16 XReg.unspecified := rfl
@[simp] theorem State.resetEvent_ctx : (s.resetEvent).ctx = Context.empty := rfl
@[simp] theorem State.resetEvent_ie : (s.resetEvent).ie = false := rfl
@[simp] theorem State.resetEvent_status : (s.resetEvent).status = Status.cleared := rfl
@[simp] theorem State.resetEvent_lastcmd : (s.resetEvent).lastcmd = 0 := rfl
@[simp] theorem State.resetEvent_cmdlatch : (s.resetEvent).cmdlatch = 0 := rfl
@[simp] theorem State.resetEvent_draws : (s.resetEvent).draws = s.draws := rfl
@[simp] theorem State.resetEvent_schedule : (s.resetEvent).schedule = s.schedule := rfl
@[simp] theorem State.resetEvent_resp : (s.resetEvent).resp = s.resp := rfl

end resetEvent

section registers
variable (s : State) (i j : RegIdx) (r : XReg)

@[simp] theorem State.reg_setReg_self : (s.setReg i r).reg i = r := by
  simp [State.reg, State.setReg]

theorem State.reg_setReg (h : j ≠ i) : (s.setReg i r).reg j = s.reg j := by
  have : i.val ≠ j.val := fun e => h (Fin.ext e.symm)
  simp [State.reg, State.setReg, Vector.getElem_set_ne, this]

@[simp] theorem State.reg_complete (e : ErrCode) : (s.complete e).reg j = s.reg j := rfl

@[simp] theorem State.reg_raiseFatal (e : ErrCode) : (s.raiseFatal e).reg j = s.reg j := rfl

@[simp] theorem State.reg_resetWith (c : Config) : (State.resetWith c).reg j = XReg.unspecified := by
  simp [State.reg, State.resetWith]

theorem State.reg_congr {s t : State} (h : t.x = s.x) : t.reg j = s.reg j := by
  simp only [State.reg, h]

/-- Two register files that agree at every index are one. -/
theorem State.x_ext {s t : State} (h : ∀ i : RegIdx, t.reg i = s.reg i) : t.x = s.x :=
  Vector.ext fun k hk => h ⟨k, hk⟩

end registers

end Sys2Proof.Machine
end

