-- ==== Sys2Proof/Laws/Operands.lean ====
section
/-! SUPPORT. What each read and write of the register file can do (spec 10_state.md R20 to R22; 20_memory.md
R52, R53), and that the canonical form of the registers is kept. -/

namespace Sys2Proof.Machine

theorem fullMask_lt (W : Nat) : fullMask W < 2 ^ W := Nat.sub_lt (Nat.two_pow_pos W) Nat.one_pos

theorem and_fullMask (a W : Nat) : a &&& fullMask W = a % 2 ^ W := Nat.and_two_pow_sub_one_eq_mod a W

theorem and_fullMask_of_lt {a W : Nat} (h : a < 2 ^ W) : a &&& fullMask W = a := by
  rw [and_fullMask, Nat.mod_eq_of_lt h]

theorem testBit_fullMask (W b : Nat) : (fullMask W).testBit b = decide (b < W) := Nat.testBit_two_pow_sub_one W b

theorem testBit_wordMask (j b : Nat) : (wordMask j).testBit b = (decide (32 * j ≤ b) && decide (b < 32 * j + 32)) := by
  unfold wordMask
  rw [Nat.testBit_shiftLeft, Nat.testBit_two_pow_sub_one]
  by_cases h : 32 * j ≤ b <;> simp [h]
  omega

theorem wordMask_lt {W j : Nat} (h : 32 * j + 32 ≤ W) : wordMask j < 2 ^ W := by
  apply Nat.lt_pow_two_of_testBit
  intro b hb
  rw [testBit_wordMask]
  simp; omega

theorem word_in_width {c : Config} {j : Nat} (h : j < c.L) : 32 * j + 32 ≤ c.W := by
  unfold Config.L at h; omega

theorem XReg.missing_lt {W : Nat} {r : XReg} {mask : Nat} (hm : mask < 2 ^ W) : r.missing mask < 2 ^ W :=
  Nat.xor_lt_two_pow hm (Nat.lt_of_le_of_lt Nat.and_le_left hm)

/-- What a register read can do: nothing but a draw, and only when a bit is unspecified. -/
theorem State.readBits_cases (s : State) (i : RegIdx) (mask : Nat) :
    ((s.reg i).missing mask = 0 ∧ s.readBits i mask = ((s.reg i).value &&& mask, s)) ∨
    ((s.reg i).missing mask ≠ 0 ∧
      s.readBits i mask =
        ((s.reg i).sample mask (Config.freeValue s.draws).toNat, { s with draws := s.draws + 1 })) := by
  unfold State.readBits
  split <;> simp_all

section readBits
variable (s : State) (i : RegIdx) (mask : Nat)

/-- A register read changes no field but the model's count of draws. -/
theorem State.readBits_snd : (s.readBits i mask).2 = { s with draws := (s.readBits i mask).2.draws } := by
  obtain ⟨-, h⟩ | ⟨-, h⟩ := s.readBits_cases i mask <;> rw [h]

@[simp] theorem State.readBits_cfg : (s.readBits i mask).2.cfg = s.cfg := by rw [State.readBits_snd]
@[simp] theorem State.readBits_x : (s.readBits i mask).2.x = s.x := by rw [State.readBits_snd]
@[simp] theorem State.readBits_ctx : (s.readBits i mask).2.ctx = s.ctx := by rw [State.readBits_snd]
@[simp] theorem State.readBits_ie : (s.readBits i mask).2.ie = s.ie := by rw [State.readBits_snd]
@[simp] theorem State.readBits_status : (s.readBits i mask).2.status = s.status := by rw [State.readBits_snd]
@[simp] theorem State.readBits_lastcmd : (s.readBits i mask).2.lastcmd = s.lastcmd := by rw [State.readBits_snd]
@[simp] theorem State.readBits_cmdlatch : (s.readBits i mask).2.cmdlatch = s.cmdlatch := by rw [State.readBits_snd]
@[simp] theorem State.readBits_schedule : (s.readBits i mask).2.schedule = s.schedule := by rw [State.readBits_snd]
@[simp] theorem State.readBits_resp : (s.readBits i mask).2.resp = s.resp := by rw [State.readBits_snd]

theorem State.readBits_lt {W : Nat} (hm : mask < 2 ^ W) : (s.readBits i mask).1 < 2 ^ W := by
  obtain ⟨-, h⟩ | ⟨-, h⟩ := s.readBits_cases i mask <;> rw [h]
  · exact Nat.lt_of_le_of_lt Nat.and_le_right hm
  · refine Nat.or_lt_two_pow ?_ ?_
    · exact Nat.lt_of_le_of_lt (Nat.le_trans Nat.and_le_right Nat.and_le_left) hm
    · exact Nat.lt_of_le_of_lt Nat.and_le_right (XReg.missing_lt hm)

end readBits

/-- A source register read changes no field but the count of draws. -/
theorem State.readX_snd (s : State) (i : RegIdx) : (s.readX i).2 = { s with draws := (s.readX i).2.draws } :=
  s.readBits_snd i _

theorem State.readX_lt (s : State) (i : RegIdx) : (s.readX i).1 < 2 ^ s.cfg.W :=
  s.readBits_lt i _ (fullMask_lt _)

/-- R22: a written register reads as its value, and nothing is drawn. -/
theorem State.readX_of_holds {s : State} {i : RegIdx} {v : Nat} (h : s.Holds i v) : s.readX i = (v, s) := by
  obtain ⟨hr, hv⟩ := h
  have hm : (s.reg i).missing (fullMask s.cfg.W) = 0 := by
    rw [hr]; simp [XReg.missing]
  unfold State.readX State.readBits
  rw [if_pos hm, hr]
  simp [and_fullMask_of_lt hv]

/-- R22: a register unwritten since reset reads as the next free value, cut to W bits. -/
theorem State.readX_of_unwritten {s : State} {i : RegIdx} (hW : 0 < s.cfg.W) (h : (s.reg i).known = 0) :
    s.readX i = ((Config.freeValue s.draws).toNat % 2 ^ s.cfg.W, { s with draws := s.draws + 1 }) := by
  have hm : (s.reg i).missing (fullMask s.cfg.W) = fullMask s.cfg.W := by simp [XReg.missing, h]
  have h0 : fullMask s.cfg.W ≠ 0 := by
    have : 2 ^ 1 ≤ 2 ^ s.cfg.W := Nat.pow_le_pow_right (by decide) hW
    unfold fullMask; omega
  unfold State.readX State.readBits
  rw [if_neg (by rw [hm]; exact h0)]
  simp [XReg.sample, hm, h, and_fullMask]

section writeX
variable (s : State) (i j : RegIdx) (v : Nat)

@[simp] theorem State.writeX_cfg : (s.writeX i v).cfg = s.cfg := rfl
@[simp] theorem State.writeX_ctx : (s.writeX i v).ctx = s.ctx := rfl
@[simp] theorem State.writeX_ie : (s.writeX i v).ie = s.ie := rfl
@[simp] theorem State.writeX_status : (s.writeX i v).status = s.status := rfl
@[simp] theorem State.writeX_lastcmd : (s.writeX i v).lastcmd = s.lastcmd := rfl
@[simp] theorem State.writeX_cmdlatch : (s.writeX i v).cmdlatch = s.cmdlatch := rfl
@[simp] theorem State.writeX_draws : (s.writeX i v).draws = s.draws := rfl
@[simp] theorem State.writeX_schedule : (s.writeX i v).schedule = s.schedule := rfl
@[simp] theorem State.writeX_resp : (s.writeX i v).resp = s.resp := rfl

@[simp] theorem State.reg_writeX_self : (s.writeX i v).reg i = ⟨v, fullMask s.cfg.W⟩ := by simp [State.writeX]

theorem State.reg_writeX (h : j ≠ i) : (s.writeX i v).reg j = s.reg j := s.reg_setReg i j _ h

theorem State.holds_writeX (h : v < 2 ^ s.cfg.W) : (s.writeX i v).Holds i v := ⟨by simp, by simpa using h⟩

end writeX

theorem XReg.unspecified_wf (W : Nat) : XReg.unspecified.Wf W := by simp [XReg.Wf, XReg.unspecified]

theorem XReg.full_wf {W v : Nat} (h : v < 2 ^ W) : XReg.Wf W ⟨v, fullMask W⟩ :=
  ⟨h, fullMask_lt W, and_fullMask_of_lt h⟩

/-- R53, by bits: word j takes the new value and no other bit changes. -/
theorem XReg.replaceWord_testBit {W : Nat} {r : XReg} (hr : r.Wf W) {j : Nat} (v : Word) (b : Nat) :
    (r.replaceWord W j v).value.testBit b =
      (if 32 * j ≤ b ∧ b < 32 * j + 32 then v.getLsbD (b - 32 * j) else r.value.testBit b) ∧
    (r.replaceWord W j v).known.testBit b = (decide (32 * j ≤ b ∧ b < 32 * j + 32) || r.known.testBit b) := by
  constructor
  · simp only [XReg.replaceWord, Nat.testBit_or, Nat.testBit_and, Nat.testBit_xor, testBit_fullMask,
      testBit_wordMask, Nat.testBit_shiftLeft]
    have hv : ∀ k, v.toNat.testBit k = v.getLsbD k := fun k => rfl
    rw [hv]
    have hb : W ≤ b → r.value.testBit b = false := fun h =>
      Nat.testBit_lt_two_pow (Nat.lt_of_lt_of_le hr.1 (Nat.pow_le_pow_right (by decide) h))
    by_cases h1 : 32 * j ≤ b
    · by_cases h2 : b < 32 * j + 32
      · by_cases h3 : b < W <;> simp [h1, h2, h3]
        intro h; rw [hb (by omega)] at h; cases h
      · have : v.getLsbD (b - 32 * j) = false := BitVec.getLsbD_of_ge _ _ (by omega)
        by_cases h3 : b < W <;> simp [h1, h2, h3, this]
        rw [hb (by omega)]
    · by_cases h3 : b < W <;> simp [h1, h3]
      rw [hb (by omega)]
  · simp only [XReg.replaceWord, Nat.testBit_or, testBit_wordMask]
    by_cases h1 : 32 * j ≤ b <;> by_cases h2 : b < 32 * j + 32 <;> simp [h1, h2]

theorem XReg.replaceWord_wf {W j : Nat} {r : XReg} (hr : r.Wf W) (h : 32 * j + 32 ≤ W) (v : Word) :
    (r.replaceWord W j v).Wf W := by
  have hv : ∀ b, W ≤ b → r.value.testBit b = false ∧ r.known.testBit b = false := fun b hb =>
    ⟨Nat.testBit_lt_two_pow (Nat.lt_of_lt_of_le hr.1 (Nat.pow_le_pow_right (by decide) hb)),
      Nat.testBit_lt_two_pow (Nat.lt_of_lt_of_le hr.2.1 (Nat.pow_le_pow_right (by decide) hb))⟩
  refine ⟨Nat.lt_pow_two_of_testBit _ fun b hb => ?_, Nat.lt_pow_two_of_testBit _ fun b hb => ?_, ?_⟩
  · rw [(replaceWord_testBit hr v b).1, if_neg (by omega), (hv b hb).1]
  · rw [(replaceWord_testBit hr v b).2, (hv b hb).2]; simp; omega
  · refine Nat.eq_of_testBit_eq fun b => ?_
    rw [Nat.testBit_and, (replaceWord_testBit hr v b).1, (replaceWord_testBit hr v b).2]
    by_cases hb : 32 * j ≤ b ∧ b < 32 * j + 32
    · simp [hb]
    · have := congrArg (Nat.testBit · b) hr.2.2
      simp only [Nat.testBit_and] at this
      simpa [hb] using this

/-- R53, R59: what a host write of an X window word can do. -/
theorem State.writeXWord_cases (s : State) (i : RegIdx) (j : Nat) (v : Word) :
    (s.status.busy = true ∧ s.writeXWord i j v = { s with status := { s.status with ovr := true } }) ∨
    (s.status.busy = false ∧ j < s.cfg.L ∧
      s.writeXWord i j v = s.setReg i ((s.reg i).replaceWord s.cfg.W j v)) ∨
    (s.status.busy = false ∧ s.cfg.L ≤ j ∧ s.writeXWord i j v = s) := by
  unfold State.writeXWord
  split
  · simp_all
  · split <;> simp_all

end Sys2Proof.Machine
end

