-- ==== Sys2Proof/Laws/Exec.lean ====
section
/-! SUPPORT. What each command can do, once (spec 40_command.md R90 to R94; 41_ctxinit.md R106; 42_domain.md
R114, R118; 43_montmul.md R128), for the later proofs to cite. -/

namespace Sys2Proof.Machine

/-- The destination register of a command, if it has one (R20). -/
def destOf : Instr → Option RegIdx
  | .ctxinit _ => none
  | .tomont d _ => some d
  | .frommont d _ => some d
  | .montmul d _ _ => some d

theorem makeContext_of_odd {n : Nat} (h : n % 2 = 1) :
    ∃ c, makeContext n = some c ∧ c.n = n ∧ c.valid = true ∧ c.Sound (bitlen n) :=
  makeContext_sound h (lt_two_pow_bitlen n)

theorem State.constructContext_even (s : State) {n : Nat} (h : n % 2 = 0) :
    s.constructContext n = s.complete .invalidModulus := by simp [State.constructContext, h]

theorem State.constructContext_odd (s : State) {n : Nat} (h : n % 2 = 1) {c : Context} (hc : makeContext n = some c) :
    s.constructContext n = ({ s with ctx := c } : State).complete .none := by
  simp [State.constructContext, h, hc]

theorem exec_ctxinit (r : RegIdx) (s : State) :
    exec (.ctxinit r) s = .next ((s.readX r).2.constructContext (s.readX r).1) := rfl

theorem exec_tomont (d r : RegIdx) {s : State} (h : s.ctx.valid = true) :
    exec (.tomont d r) s = .next (((s.readX r).2.writeX d ((s.readX r).1 * 2 ^ s.ctx.k % s.ctx.n)).complete .none) := by
  simp [exec, execTomont, State.needContext, h, toMontgomery]

theorem exec_frommont (d r : RegIdx) {s : State} (h : s.ctx.valid = true) :
    exec (.frommont d r) s = .next (((s.readX r).2.writeX d ((s.readX r).1 * s.ctx.rinv % s.ctx.n)).complete .none) := by
  simp [exec, execFrommont, State.needContext, h, fromMontgomery]

theorem exec_montmul (d a b : RegIdx) {s : State} (h : s.ctx.valid = true) :
    exec (.montmul d a b) s = .next (((s.readX a).2.readX b).2.commitProduct d
      (redc s.ctx (s.readX a).1 ((s.readX a).2.readX b).1)) := by
  simp [exec, execMontmul, State.needContext, h]

theorem exec_noContext {i : Instr} {s : State} (h : s.ctx.valid = false) (hi : ∀ r, i ≠ .ctxinit r) :
    exec i s = .next (s.complete .noContext) := by
  cases i with
  | ctxinit r => exact absurd rfl (hi r)
  | tomont d r => simp [exec, execTomont, State.needContext, h]
  | frommont d r => simp [exec, execFrommont, State.needContext, h]
  | montmul d a b => simp [exec, execMontmul, State.needContext, h]

/-- Everything a command can do: report NO_CONTEXT or INVALID_MODULUS, install a context, write one result
register, or enter the fatal state.  `k` counts the draws its source reads made. -/
theorem exec_cases {i : Instr} {s t : State} (h : exec i s = .next t) :
    (s.ctx.valid = false ∧ (∀ r, i ≠ .ctxinit r) ∧ t = s.complete .noContext) ∨
    (∃ r, i = .ctxinit r ∧ (s.readX r).1 % 2 = 0 ∧ t = (s.readX r).2.complete .invalidModulus) ∨
    (∃ r c, i = .ctxinit r ∧ (s.readX r).1 % 2 = 1 ∧ makeContext (s.readX r).1 = some c ∧
      t = ({ (s.readX r).2 with ctx := c } : State).complete .none) ∨
    (s.ctx.valid = true ∧ ∃ d y k, destOf i = some d ∧ (∀ W, s.ctx.Sound W → y < s.ctx.n) ∧
      t = (({ s with draws := k } : State).writeX d y).complete .none) ∨
    (s.ctx.valid = true ∧ ∃ d a b k, i = .montmul d a b ∧
      redc s.ctx (s.readX a).1 ((s.readX a).2.readX b).1 = none ∧
      t = ({ s with draws := k } : State).raiseFatal .invariantViolation) := by
  by_cases hv : s.ctx.valid = true
  · cases i with
    | ctxinit r =>
      rw [exec_ctxinit, Host.Outcome.next.injEq] at h
      rcases Nat.mod_two_eq_zero_or_one (s.readX r).1 with h2 | h2
      · exact .inr (.inl ⟨r, rfl, h2, by rw [← h, State.constructContext_even _ h2]⟩)
      · obtain ⟨c, hc, -⟩ := makeContext_of_odd h2
        exact .inr (.inr (.inl ⟨r, c, rfl, h2, hc, by rw [← h, State.constructContext_odd _ h2 hc]⟩))
    | tomont d r =>
      rw [exec_tomont d r hv, Host.Outcome.next.injEq] at h
      refine .inr (.inr (.inr (.inl ⟨hv, d, (s.readX r).1 * 2 ^ s.ctx.k % s.ctx.n, (s.readX r).2.draws, rfl, fun W hs => Nat.mod_lt _ hs.n_pos, ?_⟩)))
      rw [← h, ← s.readX_snd r]
    | frommont d r =>
      rw [exec_frommont d r hv, Host.Outcome.next.injEq] at h
      refine .inr (.inr (.inr (.inl ⟨hv, d, (s.readX r).1 * s.ctx.rinv % s.ctx.n, (s.readX r).2.draws, rfl, fun W hs => Nat.mod_lt _ hs.n_pos, ?_⟩)))
      rw [← h, ← s.readX_snd r]
    | montmul d a b =>
      rw [exec_montmul d a b hv, Host.Outcome.next.injEq] at h
      have hs2 : ((s.readX a).2.readX b).2 = { s with draws := ((s.readX a).2.readX b).2.draws } := by
        rw [State.readX_snd (s.readX a).2 b, State.readX_snd s a]
      generalize hr : redc s.ctx (s.readX a).1 ((s.readX a).2.readX b).1 = o at h
      cases o with
      | none =>
        exact .inr (.inr (.inr (.inr ⟨hv, d, a, b, _, rfl, hr, by
          rw [← h]; unfold State.commitProduct; rw [hs2]⟩)))
      | some u =>
        refine .inr (.inr (.inr (.inl ⟨hv, d, u, _, rfl, fun W hs => ?_, by
          rw [← h]; unfold State.commitProduct; rw [hs2]⟩)))
        rw [redc_eq hs] at hr
        split at hr
        · cases hr
        · cases hr; exact Nat.mod_lt _ hs.n_pos
  · have hv : s.ctx.valid = false := by simpa using hv
    cases i with
    | ctxinit r =>
      rw [exec_ctxinit, Host.Outcome.next.injEq] at h
      rcases Nat.mod_two_eq_zero_or_one (s.readX r).1 with h2 | h2
      · exact .inr (.inl ⟨r, rfl, h2, by rw [← h, State.constructContext_even _ h2]⟩)
      · obtain ⟨c, hc, -⟩ := makeContext_of_odd h2
        exact .inr (.inr (.inl ⟨r, c, rfl, h2, hc, by rw [← h, State.constructContext_odd _ h2 hc]⟩))
    | tomont d r => rw [exec_noContext hv (by simp)] at h; exact .inl ⟨hv, by simp, by cases h; rfl⟩
    | frommont d r => rw [exec_noContext hv (by simp)] at h; exact .inl ⟨hv, by simp, by cases h; rfl⟩
    | montmul d a b => rw [exec_noContext hv (by simp)] at h; exact .inl ⟨hv, by simp, by cases h; rfl⟩

/-- No command faults or is refused (R99). -/
theorem exec_next (i : Instr) (s : State) : ∃ t, exec i s = .next t := by
  cases i <;> exact ⟨_, rfl⟩

end Sys2Proof.Machine
end

