-- ==== Sys2Proof/Laws/Step.lean ====
section
/-! SUPPORT. What a step can do, once: the bus access, the engine's turn, the reset event
(spec 40_command.md R85 to R92; 20_memory.md R48 to R60). -/

namespace Sys2Proof.Machine

/-- What the engine's turn can do (R86, R90, R91). -/
theorem engineTurn_cases {s t : State} (h : engineTurn s = .next t) :
    (s.status.busy = false ∧ t = s) ∨
    (s.status.busy = true ∧ (∃ why, decode s.cmdlatch = .illegal why) ∧ t = s.complete .illegalCommand) ∨
    (s.status.busy = true ∧ ∃ i, decode s.cmdlatch = .cmd i ∧ exec i s = .next t) := by
  unfold engineTurn at h
  split at h
  · split at h
    · exact .inr (.inl ⟨‹_›, ⟨_, ‹_›⟩, by cases h; rfl⟩)
    · exact .inr (.inr ⟨‹_›, _, ‹_›, h⟩)
  · rename_i hb
    exact .inl ⟨by simpa using hb, by cases h; rfl⟩

/-- What a host access that is answered can do (R48, R56). -/
theorem hostTurn_cases {a : Access} {s t : State} (h : hostTurn a s = .next t) :
    a.inWindow s.cfg = true ∧ a.admitted = true ∧ t = s.serve a := by
  unfold hostTurn at h
  split at h
  · cases h
  · split at h
    · cases h
    · exact ⟨by simpa using ‹¬ a.inWindow s.cfg = false›, by simpa using ‹¬ a.admitted = false›, by cases h; rfl⟩

theorem hostTurn_eq {a : Access} {s : State} (h1 : a.inWindow s.cfg = true) (h2 : a.admitted = true) :
    hostTurn a s = .next (s.serve a) := by simp [hostTurn, h1, h2]

theorem step_access {s : State} {a : Access} {rest : List Turn} (h : s.schedule = .access a :: rest) :
    step s = hostTurn a { s with schedule := rest } := by simp [step, takeTurn, h]

theorem step_engine {s : State} {rest : List Turn} (h : s.schedule = .engine :: rest) :
    step s = engineTurn { s with schedule := rest } := by simp [step, takeTurn, h]

theorem step_empty {s : State} (h : s.schedule = []) : step s = engineTurn s := by simp [step, takeTurn, h]

theorem step_reset {s : State} {rest : List Turn} (h : s.schedule = .reset :: rest) :
    step s = .next ({ s with schedule := rest } : State).resetEvent := by simp [step, takeTurn, h]

/-- Everything a step that is answered can be: reset, one admitted access, or the engine's turn. -/
theorem step_cases {s t : State} (h : step s = .next t) :
    (∃ rest, s.schedule = .reset :: rest ∧ t = ({ s with schedule := rest } : State).resetEvent) ∨
    (∃ a rest, s.schedule = .access a :: rest ∧ a.inWindow s.cfg = true ∧ a.admitted = true ∧
      t = ({ s with schedule := rest } : State).serve a) ∨
    (∃ rest, (s.schedule = .engine :: rest ∨ s.schedule = [] ∧ rest = []) ∧
      engineTurn { s with schedule := rest } = .next t) := by
  cases hs : s.schedule with
  | nil =>
    rw [step_empty hs] at h
    refine .inr (.inr ⟨[], .inr ⟨rfl, rfl⟩, ?_⟩)
    rwa [show ({ s with schedule := [] } : State) = s by rw [← hs]]
  | cons x rest =>
    cases x with
    | engine => rw [step_engine hs] at h; exact .inr (.inr ⟨rest, .inl rfl, h⟩)
    | access a =>
      rw [step_access hs] at h
      exact .inr (.inl ⟨a, rest, rfl, hostTurn_cases h⟩)
    | reset => rw [step_reset hs] at h; exact .inl ⟨rest, rfl, by cases h; rfl⟩

theorem run_succ_of_step (M : Host.Core) {s u : M.State} (k : Nat) (h : M.step s = .next u) :
    M.run (k + 1) s = M.run k u := by
  rw [Host.Core.run, h]

/-- A run that starts with an answered step goes on from its state. -/
theorem core_run_succ {s u : State} (k : Nat) (h : step s = .next u) : core.run (k + 1) s = core.run k u :=
  run_succ_of_step core k h

/-- A read touches nothing but the model's count of draws (R60). -/
theorem State.readLoc_snd (s : State) (l : Loc) :
    (s.readLoc l).2 = { s with draws := (s.readLoc l).2.draws } := by
  cases l <;> first | rfl | skip
  rename_i i j
  simp only [State.readLoc, State.readXWord]
  split
  · exact s.readBits_snd i _
  · rfl

/-- Everything an admitted access can do to the state, apart from the answer and the count of draws. -/
theorem State.serve_cases (s : State) (a : Access) :
    (∃ k w, s.serve a = { s with draws := k, resp := .readData w }) ∨
    (∃ addr n v, a = .write addr n v ∧
      ((locate (addr - s.cfg.base) = .ctrl ∧ s.serve a = { s.writeCtrl v with resp := .writeDone }) ∨
       (locate (addr - s.cfg.base) = .cmd ∧ s.serve a = { s.writeCmd v with resp := .writeDone }) ∨
       (locate (addr - s.cfg.base) = .ack ∧ s.serve a = { s.writeAck v with resp := .writeDone }) ∨
       (∃ i j, locate (addr - s.cfg.base) = .x i j ∧ s.serve a = { s.writeXWord i j v with resp := .writeDone }) ∨
       (s.serve a = { s with resp := .writeDone }))) := by
  cases a with
  | read addr n =>
    refine .inl ⟨(s.readLoc (locate (addr - s.cfg.base))).2.draws, (s.readLoc (locate (addr - s.cfg.base))).1, ?_⟩
    simp only [State.serve]
    rw [s.readLoc_snd]
  | write addr n v =>
    refine .inr ⟨addr, n, v, rfl, ?_⟩
    simp only [State.serve]
    cases hl : locate (addr - s.cfg.base) <;> simp [State.writeLoc]

/-- What a CMD write can do (R87 to R89). -/
theorem State.writeCmd_cases (s : State) (v : Word) :
    (s.status.fatal = true ∧ s.writeCmd v = s) ∨
    (s.status.fatal = false ∧ s.status.busy = true ∧
      s.writeCmd v = { s with status := { s.status with ovr := true } }) ∨
    (s.status.fatal = false ∧ s.status.busy = false ∧ s.writeCmd v = s.accept v) := by
  unfold State.writeCmd
  cases s.status.fatal <;> cases s.status.busy <;> simp

/-- What an ACK write can do (R38). -/
theorem State.writeAck_cases (s : State) (v : Word) :
    (v.getLsbD 0 = false ∧ s.writeAck v = s) ∨
    (v.getLsbD 0 = true ∧ s.writeAck v = { s with
      status := ⟨s.status.busy, false, s.status.fatal, false, if s.status.fatal then s.status.err else .none⟩ }) := by
  unfold State.writeAck
  cases v.getLsbD 0 <;> simp

section Locate

variable {off : Nat}

theorem locate_x (i : RegIdx) {j : Nat} (h : j < 512) : locate (0x8000 + 0x800 * i.val + 4 * j) = .x i j := by
  have hi : i.val < 16 := i.isLt
  unfold locate bigWindow
  repeat rw [if_neg (by omega)]
  have h1 : (0x8000 + 0x800 * i.val + 4 * j - 0x8000) / 0x800 = i.val := by omega
  have h2 : (0x8000 + 0x800 * i.val + 4 * j - 0x8000) % 0x800 / 4 = j := by omega
  rw [h1, h2]
  simp

theorem locate_ctxN {j : Nat} (h : j < 512) : locate (0x0800 + 4 * j) = .ctxN j := by
  unfold locate
  repeat rw [if_neg (by omega)]
  rw [if_pos (by omega)]; congr 1; omega

theorem locate_ctxRinv {j : Nat} (h : j < 512) : locate (0x1000 + 4 * j) = .ctxRinv j := by
  unfold locate
  repeat rw [if_neg (by omega)]
  rw [if_pos (by omega)]; congr 1; omega

theorem locate_ctxNprime {j : Nat} (h : j < 512) : locate (0x1800 + 4 * j) = .ctxNprime j := by
  unfold locate
  repeat rw [if_neg (by omega)]
  rw [if_pos (by omega)]; congr 1; omega

/-- R51 read backwards: where each writable location lies. -/
theorem locate_inv (off : Nat) :
    (locate off = .ctrl → off = 0x008) ∧ (locate off = .cmd → off = 0x010) ∧ (locate off = .ack → off = 0x014) ∧
    (∀ i j, locate off = .x i j → off < 0x10000 →
      j < 512 ∧ off / 4 * 4 = 0x8000 + 0x800 * i.val + 4 * j) := by
  refine ⟨fun h => ?_, fun h => ?_, fun h => ?_, fun i j h hlt => ?_⟩
  · simp [locate, apply_ite (· = Loc.ctrl)] at h; omega
  · simp [locate, apply_ite (· = Loc.cmd)] at h; omega
  · simp [locate, apply_ite (· = Loc.ack)] at h; omega
  · simp only [locate, apply_ite (· = Loc.x i j)] at h
    simp only [reduceCtorEq, Loc.x.injEq, bigWindow] at h
    have h8 : 0x8000 ≤ off := by
      by_contra hc
      simp [show off < 0x8000 by omega] at h
    repeat rw [if_neg (by omega)] at h
    obtain ⟨rfl, rfl⟩ := h
    have hq : (off - 0x8000) / 0x800 < 16 := by omega
    have : (Fin.ofNat 16 ((off - 0x8000) / 0x800)).val = (off - 0x8000) / 0x800 := Nat.mod_eq_of_lt hq
    rw [this]
    omega

end Locate

end Sys2Proof.Machine
end

