-- ==== Sys2Proof/Laws/Bus.lean ====
section
/-! SUPPORT. One host access at a window offset, as a step (spec 20_memory.md R48, R51, R56), and what a
read depends on. -/

namespace Sys2Proof.Machine

theorem Config.wf_iff (c : Config) :
    c.wf = true ↔ c.W % 32 = 0 ∧ 32 ≤ c.W ∧ c.W ≤ 16384 ∧ c.base % 0x10000 = 0 := by
  simp only [Config.wf, Bool.and_eq_true, decide_eq_true_eq, and_assoc]
  exact Iff.rfl

theorem Access.inWindow_iff (c : Config) (a : Access) :
    a.inWindow c = true ↔ c.base ≤ a.addr ∧ a.addr < c.base + 0x10000 := by
  simp only [Access.inWindow, Bool.and_eq_true, decide_eq_true_eq]
  exact Iff.rfl

theorem Access.admitted_iff (a : Access) : a.admitted = true ↔ a.size = 4 ∧ a.addr % 4 = 0 := by
  simp [Access.admitted]

/-- A read of the word at a window offset, as a step. -/
theorem step_read {s : State} {off : Nat} {rest : List Turn} (hw : s.cfg.wf = true) (h : off < 0x10000)
    (h4 : off % 4 = 0) (hs : s.schedule = .access (.read (s.cfg.base + off) 4) :: rest) :
    step s = .next { (({ s with schedule := rest } : State).readLoc (locate off)).2 with
      resp := .readData (({ s with schedule := rest } : State).readLoc (locate off)).1 } := by
  obtain ⟨-, -, -, hb⟩ := (Config.wf_iff _).1 hw
  rw [step_access hs]
  refine (hostTurn_eq (s := { s with schedule := rest })
    ((Access.inWindow_iff _ _).2 (by simp [Access.addr, h]))
    ((Access.admitted_iff _).2 ⟨rfl, by simp only [Access.addr]; omega⟩)).trans ?_
  simp [State.serve]

/-- A write of the word at a window offset, as a step. -/
theorem step_write {s : State} {off : Nat} {v : Word} {rest : List Turn} (hw : s.cfg.wf = true) (h : off < 0x10000)
    (h4 : off % 4 = 0) (hs : s.schedule = .access (.write (s.cfg.base + off) 4 v) :: rest) :
    step s = .next { ({ s with schedule := rest } : State).writeLoc v (locate off) with resp := .writeDone } := by
  obtain ⟨-, -, -, hb⟩ := (Config.wf_iff _).1 hw
  rw [step_access hs]
  refine (hostTurn_eq (s := { s with schedule := rest })
    ((Access.inWindow_iff _ _).2 (by simp [Access.addr, h]))
    ((Access.admitted_iff _).2 ⟨rfl, by simp only [Access.addr]; omega⟩)).trans ?_
  simp [State.serve]

/-- A read of word j of X[i]'s window, as a step. -/
theorem step_readX {s : State} {i : RegIdx} {j : Nat} {rest : List Turn} (hw : s.cfg.wf = true) (hj : j < 512)
    (hs : s.schedule = .access (.read (s.cfg.base + 0x8000 + 0x800 * i.val + 4 * j) 4) :: rest) :
    step s = .next { (({ s with schedule := rest } : State).readXWord i j).2 with
      resp := .readData (({ s with schedule := rest } : State).readXWord i j).1 } := by
  have := i.isLt
  have hs' : s.schedule = .access (.read (s.cfg.base + (0x8000 + 0x800 * i.val + 4 * j)) 4) :: rest := by
    rw [hs, Nat.add_assoc s.cfg.base, Nat.add_assoc s.cfg.base]
  rw [step_read hw (by omega) (by omega) hs', locate_x i hj]
  rfl

/-- A write of word j of X[i]'s window, as a step. -/
theorem step_writeX {s : State} {i : RegIdx} {j : Nat} {v : Word} {rest : List Turn} (hw : s.cfg.wf = true)
    (hj : j < 512)
    (hs : s.schedule = .access (.write (s.cfg.base + 0x8000 + 0x800 * i.val + 4 * j) 4 v) :: rest) :
    step s = .next { ({ s with schedule := rest } : State).writeXWord i j v with resp := .writeDone } := by
  have := i.isLt
  have hs' : s.schedule = .access (.write (s.cfg.base + (0x8000 + 0x800 * i.val + 4 * j)) 4 v) :: rest := by
    rw [hs, Nat.add_assoc s.cfg.base, Nat.add_assoc s.cfg.base]
  rw [step_write hw (by omega) (by omega) hs', locate_x i hj]
  rfl

/-- What a read of a location depends on. -/
theorem State.readLoc_congr {s t : State} (l : Loc) (hcfg : t.cfg = s.cfg) (hd : t.draws = s.draws)
    (hie : t.ie = s.ie) (hl : t.lastcmd = s.lastcmd) (h1 : l = .status → t.status = s.status ∧ t.ctx = s.ctx)
    (h2 : (l = .ctxk ∨ ∃ j, l = .ctxN j ∨ l = .ctxRinv j ∨ l = .ctxNprime j) → t.ctx = s.ctx)
    (h3 : ∀ i j, l = .x i j → t.reg i = s.reg i) : (t.readLoc l).1 = (s.readLoc l).1 := by
  cases l with
  | id => rfl
  | param => simp [State.readLoc, hcfg]
  | ctrl => simp [State.readLoc, State.ctrlWord, hie]
  | status => simp [State.readLoc, State.statusWord, h1 rfl]
  | cmd => rfl
  | ack => rfl
  | ctxk => simp [State.readLoc, State.ctxkWord, h2 (.inl rfl)]
  | lastcmd => simp [State.readLoc, hl]
  | ctxN j => simp [State.readLoc, hcfg, h2 (.inr ⟨j, .inl rfl⟩)]
  | ctxRinv j => simp [State.readLoc, hcfg, h2 (.inr ⟨j, .inr (.inl rfl)⟩)]
  | ctxNprime j => simp [State.readLoc, hcfg, h2 (.inr ⟨j, .inr (.inr rfl)⟩)]
  | x i j =>
    simp only [State.readLoc, State.readXWord, State.readBits, hcfg, hd, h3 i j rfl]
    split
    · split <;> rfl
    · rfl
  | reserved => rfl

theorem locate_status {off : Nat} (h : locate off = .status) : off = 0x00C := by
  simp [locate, apply_ite (· = Loc.status)] at h; omega

theorem locate_ctxk {off : Nat} (h : locate off = .ctxk) : off = 0x018 := by
  simp [locate, apply_ite (· = Loc.ctxk)] at h; omega

theorem locate_ctx {off j : Nat} (h : locate off = .ctxN j ∨ locate off = .ctxRinv j ∨ locate off = .ctxNprime j) :
    0x800 ≤ off ∧ off < 0x2000 := by
  rcases h with h | h | h
  · simp [locate, apply_ite (· = Loc.ctxN j)] at h; omega
  · simp [locate, apply_ite (· = Loc.ctxRinv j)] at h; omega
  · simp [locate, apply_ite (· = Loc.ctxNprime j)] at h; omega

/-- R53: every window word of a written register, read by the host, is that word of the value. -/
theorem State.readXWord_of_holds {s : State} {i : RegIdx} {v : Nat} (h : s.Holds i v) (j : Nat) :
    s.readXWord i j = (windowWord s.cfg v j, s) := by
  unfold State.readXWord windowWord
  split
  · rename_i hj
    have hw := word_in_width hj
    have hm : wordMask j &&& fullMask s.cfg.W = wordMask j := and_fullMask_of_lt (wordMask_lt hw)
    have hr : s.readBits i (wordMask j) = (v &&& wordMask j, s) := by
      unfold State.readBits XReg.missing
      rw [h.1]
      simp [hm]
    simp only [hr, Prod.mk.injEq, and_true, wordOf]
    apply BitVec.eq_of_getLsbD_eq
    intro k hk
    rw [BitVec.getLsbD_ofNat, BitVec.getLsbD_ofNat, Nat.testBit_shiftRight, Nat.testBit_shiftRight, Nat.testBit_and,
      testBit_wordMask]
    simp [hk]
  · rfl

end Sys2Proof.Machine
end

