-- ==== Sys2Proof/Laws/PerInstr.lean ====
section
/-! SUPPORT. The words of commands as numbers, and what holds of every command as syntax, one lemma per
constructor. -/

namespace Sys2Proof

/-- The two low source and destination fields of a word beside its opcode. -/
theorem fields_low (d s : RegIdx) :
    (s.val <<< 8 ||| d.val <<< 4 ||| 2) = s.val * 256 + d.val * 16 + 2 ∧
    (s.val <<< 8 ||| d.val <<< 4 ||| 3) = s.val * 256 + d.val * 16 + 3 ∧
    (s.val <<< 8 ||| d.val <<< 4 ||| 4) = s.val * 256 + d.val * 16 + 4 := by
  revert d s; decide +kernel

theorem encode_ctxinit_toNat (s : RegIdx) : (encode (.ctxinit s)).toNat = s.val * 256 + 1 := by
  revert s; decide

theorem encode_tomont_toNat (d s : RegIdx) : (encode (.tomont d s)).toNat = s.val * 256 + d.val * 16 + 2 := by
  rw [encode, (fields_low d s).1, BitVec.toNat_ofNat, Nat.mod_eq_of_lt (by omega)]

theorem encode_frommont_toNat (d s : RegIdx) : (encode (.frommont d s)).toNat = s.val * 256 + d.val * 16 + 3 := by
  rw [encode, (fields_low d s).2.1, BitVec.toNat_ofNat, Nat.mod_eq_of_lt (by omega)]

theorem encode_montmul_toNat (d s t : RegIdx) :
    (encode (.montmul d s t)).toNat = t.val * 4096 + (s.val * 256 + d.val * 16 + 4) := by
  rw [encode, Nat.or_assoc, Nat.or_assoc, ← Nat.or_assoc (s.val <<< 8), (fields_low d s).2.2,
    ← Nat.shiftLeft_add_eq_or_of_lt (by omega : s.val * 256 + d.val * 16 + 4 < 2 ^ 12), Nat.shiftLeft_eq,
    BitVec.toNat_ofNat, Nat.mod_eq_of_lt (by omega)]

namespace Laws.EncodeIsLegal

/-- R75, R79: the word of a command is a legal word with RSV = 0, and the command is well formed. -/
def Statement (i : Instr) : Prop := legal (encode i) = true ∧ rsvField (encode i) = 0 ∧ i.wf = true

theorem ctxinit (rs1 : RegIdx) : Statement (.ctxinit rs1) := by
  unfold Statement; revert rs1; decide

theorem tomont (rd rs1 : RegIdx) : Statement (.tomont rd rs1) := by
  simp [Statement, Instr.wf, legal, rsvField, opField, rdField, rs2Field, bits, encode_tomont_toNat,
    Nat.shiftRight_eq_div_pow]; omega

theorem frommont (rd rs1 : RegIdx) : Statement (.frommont rd rs1) := by
  simp [Statement, Instr.wf, legal, rsvField, opField, rdField, rs2Field, bits, encode_frommont_toNat,
    Nat.shiftRight_eq_div_pow]; omega

theorem montmul (rd rs1 rs2 : RegIdx) : Statement (.montmul rd rs1 rs2) := by
  simp [Statement, Instr.wf, legal, rsvField, opField, rdField, rs2Field, bits, encode_montmul_toNat,
    Nat.shiftRight_eq_div_pow]; omega

end Laws.EncodeIsLegal

end Sys2Proof
end

