-- ==== Sys2Proof/Tests/Slice0.lean ====
section
/-! SUPPORT. The model's own tests.  Expected values come from spec/95_test_vectors.md (V-*, L1-*) and
30_encoding.md R84, as each test's name or comment says.  The second half gives, for every statement with
hypotheses, a concrete state and operands that meet them. -/

-- The tests are checked one after another, so that the compile does not hold a thread for each.
set_option Elab.async false

namespace Sys2Proof.Tests
open Sys2Proof Sys2Proof.Machine

/-! ### Small states -/

/-- ctx13 of 95_test_vectors.md: the context of N = 13. -/
def ctx13 : Context := ⟨13, 4, 9, 11, true⟩

/-- The context of N = 2^64 - 59 (V-CI-09). -/
def ctx64 : Context := ⟨2 ^ 64 - 59, 64, 14694863923124558020, 14694863923124558067, true⟩

/-- An idle engine of width W with the given registers written and the given context. -/
def idle (W : Nat) (xs : List (RegIdx × Nat)) (c : Context) : State :=
  { xs.foldl (fun s p => s.writeX p.1 p.2) (State.resetWith ⟨W, 0x40000000⟩) with ctx := c }

/-- The same engine with the word `v` accepted and the given turns to come. -/
def running (s : State) (v : Word) (turns : List Turn) : State := { s.accept v with schedule := turns }

/-- The same engine with the given turns to come. -/
def withTurns (s : State) (turns : List Turn) : State := { s with schedule := turns }

/-- The window offset `off` as a host access. -/
def rd (off : Nat) : Turn := .access (.read (0x40000000 + off) 4)
def wr (off : Nat) (v : Word) : Turn := .access (.write (0x40000000 + off) 4 v)

/-- What a test asks of an outcome: a property of the next state. -/
def after (o : Host.Outcome State Fault Refusal) (p : State → Bool) : Bool :=
  match o with
  | .next t => p t
  | .fault _ => false
  | .refused _ => false

/-- A run of k steps. -/
def run : Nat → State → Host.Outcome State Fault Refusal
  | 0, s => .next s
  | k + 1, s =>
    match step s with
    | .next t => run k t
    | .fault r => .fault r
    | .refused r => .refused r

/-- STATUS as the word the vectors write. -/
def statusIs (w : Word) (t : State) : Bool := decide (t.statusWord = w)

/-- X[i] holds the specified value v. -/
def holds (i : RegIdx) (v : Nat) (t : State) : Bool := decide (t.Holds i v)

/-! ### Well-formedness: one ill-formed term for each check -/

theorem smoke_wf_ok : Config.wf ⟨32, 0⟩ = true ∧ Config.wf ⟨16384, 0xFFFF0000⟩ = true := by decide
theorem smoke_width_not_a_multiple_of_32 : Config.wf ⟨48, 0⟩ = false := by decide
theorem smoke_width_too_small : Config.wf ⟨0, 0⟩ = false := by decide
theorem smoke_width_too_large : Config.wf ⟨16416, 0⟩ = false := by decide
theorem smoke_base_not_aligned : Config.wf ⟨32, 0x8000⟩ = false := by decide

/-! ### Decoding: words written out from the spec's encodings (R71, R73, R84) -/

/-- `MONTMUL x15, x14, x13`: RSV = 0, RS2 = 1101, RS1 = 1110, RD = 1111, OP = 0100. -/
theorem test_decode_montmul : decode 0b00000000000000001101111011110100#32 = .cmd (.montmul 15 14 13) := by decide
/-- `TOMONT x2, x1`: RSV = 0, RS2 = 0, RS1 = 0001, RD = 0010, OP = 0010. -/
theorem test_decode_tomont : decode 0b00000000000000000000000100100010#32 = .cmd (.tomont 2 1) := by decide
/-- `FROMMONT x4, x3`: RSV = 0, RS2 = 0, RS1 = 0011, RD = 0100, OP = 0011. -/
theorem test_decode_frommont : decode 0b00000000000000000000001101000011#32 = .cmd (.frommont 4 3) := by decide
/-- `CTXINIT x15`: RSV = 0, RS2 = 0, RS1 = 1111, RD = 0, OP = 0001. -/
theorem test_decode_ctxinit : decode 0b00000000000000000000111100000001#32 = .cmd (.ctxinit 15) := by decide
/-- V-EN-10 to V-EN-19: every illegal word of the list, with the reason the decoder names. -/
theorem test_decode_illegal :
    decode 0x00000000 = .illegal .reservedOpcode ∧ decode 0x00000011 = .illegal .requiredZero ∧
    decode 0x00001001 = .illegal .requiredZero ∧ decode 0x00001002 = .illegal .requiredZero ∧
    decode 0x00001003 = .illegal .requiredZero ∧ decode 0x00010004 = .illegal .reservedBits ∧
    decode 0x80000004 = .illegal .reservedBits ∧ decode 0x00000005 = .illegal .reservedOpcode ∧
    decode 0x0000000F = .illegal .reservedOpcode ∧ decode 0xFFFFFFFF = .illegal .reservedBits := by decide
/-- V-EN-05, V-EN-09: the encoder on two rows of the list. -/
theorem test_encode : encode (.frommont 0 15) = 0x00000F03 ∧ encode (.montmul 15 0 15) = 0x0000F0F4 := by decide
theorem test_decodeTableWord :
    decodeTableWord 32 0x00002234 = some (.montmul 3 2 2) ∧ decodeTableWord 32 0x00010004 = none := by decide
/-- The host's placement runs the word as the first command after reset. -/
theorem test_withFetchWord_first : after (step (State.reset.withFetchWord 32 0x00002234)) (statusIs 0x202) = true := by
  decide
/-- An unwritten modulus register is no stop: the command completes. -/
theorem test_withFetchWord_reads_unwritten :
    after (step (State.reset.withFetchWord 32 0x00000001)) (fun _ => true) = true := by decide

/-- R80 to R83: case, blanks, comments and the pseudo-instruction. -/
theorem test_assemble :
    assemble "  montmul x15,x14 , x13 ; a product" = .cmd (.montmul 15 14 13) ∧ assemble "MontSqr x5, x5" = .cmd (.montmul 5 5 5) ∧
    assemble "; nothing" = .empty ∧ assemble "TOMONT x2, x16" = .bad ∧ assemble "TOMONT x2" = .bad := by decide +kernel
/-- R82: the line of a command assembles to it. -/
theorem test_assemble_own_text : ∀ d s : RegIdx, asmLine (asmText (.frommont d s)) = .cmd (.frommont d s) := by
  decide +kernel

/-! ### Commands -/

/-- V-CI-01, V-CI-04, V-CI-08: contexts of 13, 1 and 2^31 + 1. -/
theorem test_ctxinit_contexts :
    after (exec (.ctxinit 0) (idle 32 [(0, 13)] Context.empty)) (fun t => decide (t.ctx = ctx13) && statusIs 0x006 t) = true ∧
    after (exec (.ctxinit 0) (idle 32 [(0, 1)] Context.empty)) (fun t => decide (t.ctx = ⟨1, 1, 0, 1, true⟩)) = true ∧
    after (exec (.ctxinit 0) (idle 32 [(0, 2147483649)] Context.empty))
      (fun t => decide (t.ctx = ⟨2147483649, 32, 1073741824, 2147483647, true⟩)) = true := by decide +kernel
/-- V-CI-09 (W = 64), V-CI-10 and V-CI-13 (rejected, the old context kept). -/
theorem test_ctxinit_wide_and_rejected :
    after (exec (.ctxinit 0) (idle 64 [(0, 2 ^ 64 - 59)] Context.empty)) (fun t => decide (t.ctx = ctx64)) = true ∧
    after (exec (.ctxinit 0) (idle 32 [(0, 0)] Context.empty)) (statusIs 0x102) = true ∧
    after (exec (.ctxinit 0) (idle 32 [(0, 14)] ctx13)) (fun t => decide (t.ctx = ctx13) && statusIs 0x106 t) = true := by
  decide +kernel
/-- V-TM-04, V-TM-07 (t above N), V-TM-12 (in place). -/
theorem test_tomont :
    after (exec (.tomont 2 1) (idle 32 [(1, 12)] ctx13)) (holds 2 10) = true ∧
    after (exec (.tomont 2 1) (idle 32 [(1, 2 ^ 32 - 1)] ctx13)) (holds 2 11) = true ∧
    after (exec (.tomont 1 1) (idle 32 [(1, 7)] ctx13)) (holds 1 8) = true := by decide +kernel
/-- V-TM-10 (W = 64), V-TM-11 (no context). -/
theorem test_tomont_wide_and_no_context :
    after (exec (.tomont 2 1) (idle 64 [(1, 9223372036854788153)] ctx64)) (holds 2 9223372036855505874) = true ∧
    after (exec (.tomont 2 1) (idle 32 [(1, 7), (2, 5)] Context.empty)) (fun t => holds 2 5 t && statusIs 0x202 t) = true := by
  decide +kernel
/-- V-FM-05, V-FM-07 (m above N). -/
theorem test_frommont :
    after (exec (.frommont 4 3) (idle 32 [(3, 10)] ctx13)) (holds 4 12) = true ∧
    after (exec (.frommont 4 3) (idle 32 [(3, 2 ^ 32 - 1)] ctx13)) (holds 4 7) = true := by decide +kernel
/-- V-FM-10 (W = 64), V-FM-11 (no context). -/
theorem test_frommont_wide_and_no_context :
    after (exec (.frommont 4 3) (idle 64 [(3, 9223372036855505874)] ctx64)) (holds 4 9223372036854788153) = true ∧
    after (exec (.frommont 4 3) (idle 32 [(3, 4)] Context.empty)) (statusIs 0x202) = true := by decide +kernel
/-- V-MM-03 (one correction), V-MM-08 (operand above N), V-MM-21 (all three the same), V-MM-22 (W = 64). -/
theorem test_montmul_results :
    after (exec (.montmul 5 3 4) (idle 32 [(3, 5), (4, 9)] ctx13)) (holds 5 2) = true ∧
    after (exec (.montmul 5 3 4) (idle 32 [(3, 14), (4, 1)] ctx13)) (holds 5 9) = true ∧
    after (exec (.montmul 5 5 5) (idle 32 [(5, 8)] ctx13)) (holds 5 4) = true ∧
    after (exec (.montmul 5 3 4) (idle 64 [(3, 0x320FEDCBA987623C), (4, 0xABCDF0123456794C)] ctx64))
      (holds 5 0x49A45C60A009810F) = true := by decide +kernel
/-- V-MM-09, V-MM-15: fatal, X[5] unchanged; V-MM-12: the last product that is not. -/
theorem test_montmul_fatal :
    after (exec (.montmul 5 3 4) (idle 32 [(3, 221), (4, 1), (5, 77)] ctx13))
      (fun t => holds 5 77 t && statusIs 0x40E t) = true ∧
    after (exec (.montmul 5 3 4) (idle 32 [(3, 2 ^ 32 - 1), (4, 2 ^ 32 - 1)] ctx13)) (statusIs 0x40E) = true ∧
    after (exec (.montmul 5 3 4) (idle 32 [(3, 207), (4, 1)] ctx13)) (holds 5 4) = true := by decide +kernel

/-! ### Protocol and bus (95_test_vectors.md 2.6, 2.7) -/

/-- V-PR-02: the second CMD write is dropped and FROMMONT never runs. -/
theorem test_cmd_dropped_while_busy :
    after (run 2 (withTurns (idle 32 [(2, 8), (3, 4)] ctx13) [wr 0x010 0x2234, wr 0x010 0x0343]))
      (fun t => decide (t.lastcmd = 0x2234) && t.status.busy && t.status.ovr) = true ∧
    after (run 3 (withTurns (idle 32 [(2, 8), (3, 0)] ctx13) [wr 0x010 0x2234, wr 0x010 0x0343]))
      (fun t => statusIs 0x016 t && holds 3 4 t) = true := by decide +kernel
/-- V-PR-03: an X write while busy is dropped. -/
theorem test_x_write_dropped_while_busy :
    after (run 2 (withTurns (idle 32 [(2, 8)] ctx13) [wr 0x010 0x2234, wr 0x9000 5]))
      (fun t => holds 2 8 t && statusIs 0x015 t) = true := by decide +kernel
/-- V-PR-11: ACK keeps ERR in the fatal state, and the next CMD write is ignored. -/
theorem test_fatal_protocol :
    after (run 4 (withTurns (idle 32 [(3, 221), (4, 1)] ctx13) [wr 0x010 0x4354, .engine, wr 0x014 1, wr 0x010 1]))
      (fun t => statusIs 0x40C t && decide (t.lastcmd = 0x4354)) = true := by decide +kernel
/-- V-PR-16: each is a bus error. -/
theorem test_bus_errors :
    hostTurn (.read 0x40000002 4) (idle 32 [] ctx13) = .fault (.busError 0x40000002) ∧
    hostTurn (.write 0x40000010 2 1) (idle 32 [] ctx13) = .fault (.busError 0x40000010) ∧
    hostTurn (.read 0x40000000 1) (idle 32 [] ctx13) = .fault (.busError 0x40000000) := by
  refine ⟨rfl, rfl, rfl⟩
/-- V-PR-17, V-PR-19. -/
theorem test_control_registers :
    (idle 32 [] ctx13).readLoc (locate 0x000) = (0x4D4F4E54#32, idle 32 [] ctx13) ∧
    paramWord ⟨32, 0⟩ = 0x01100020 ∧ paramWord ⟨64, 0⟩ = 0x01100040 ∧ paramWord ⟨1024, 0⟩ = 0x01100400 ∧
    ((idle 32 [] ctx13).writeCtrl 0xFFFFFFFF).ctrlWord = 1 := by decide +kernel
/-- V-PR-20 and V-PR-21: words and bytes of a 64-bit register. -/
theorem test_words_of_a_wide_register :
    ((idle 64 [(1, 0x123456789ABCDEF0)] ctx13).readLoc (locate 0x8800)).1 = 0x9ABCDEF0#32 ∧
    ((idle 64 [(1, 0x123456789ABCDEF0)] ctx13).readLoc (locate 0x8804)).1 = 0x12345678#32 ∧
    (idle 64 [(1, 0x123456789ABCDEF0)] ctx13).windowByte 0x8800 = 0xF0#8 ∧
    (idle 64 [(1, 0x123456789ABCDEF0)] ctx13).windowByte 0x8807 = 0x12#8 ∧
    after (step (withTurns (idle 64 [(1, 0x123456789ABCDEF0)] ctx13) [wr 0x8804 0xFFFFFFFF]))
      (holds 1 0xFFFFFFFF9ABCDEF0) = true := by decide +kernel
/-- The context windows of V-CI-09. -/
theorem test_context_windows :
    ((idle 64 [] ctx64).readLoc (locate 0x0800)).1 = 0xFFFFFFC5#32 ∧
    ((idle 64 [] ctx64).readLoc (locate 0x1804)).1 = 0xCBEEA4E1#32 ∧
    ((idle 64 [] ctx64).readLoc (locate 0x0018)).1 = 64#32 := by decide +kernel
/-- R51: the first and the last word of each region of the map. -/
theorem test_address_map :
    locate 0x001C = .lastcmd ∧ locate 0x0020 = .reserved ∧ locate 0x07FC = .reserved ∧ locate 0x0800 = .ctxN 0 ∧
    locate 0x0FFC = .ctxN 511 ∧ locate 0x1000 = .ctxRinv 0 ∧ locate 0x1FFC = .ctxNprime 511 ∧ locate 0x2000 = .reserved ∧
    locate 0x7FFC = .reserved ∧ locate 0x8000 = .x 0 0 ∧ locate 0x87FC = .x 0 511 ∧ locate 0xFFFC = .x 15 511 := by
  decide
/-- Two words written one by one make every bit of a 64-bit register specified (R53). -/
theorem test_word_writes_specify_the_register :
    after (run 2 (withTurns (State.resetWith ⟨64, 0x40000000⟩) [wr 0x8800 0x9ABCDEF0, wr 0x8804 0x12345678]))
      (holds 1 0x123456789ABCDEF0) = true := by decide +kernel
/-- V-RS-02, V-RS-03. -/
theorem test_reset_event :
    after (run 2 (withTurns (idle 32 [(2, 8)] ctx13) [wr 0x010 0x2234, .reset])) (statusIs 0x000) = true ∧
    after (run 3 (withTurns (idle 32 [(3, 221), (4, 1)] ctx13) [wr 0x010 0x4354, .engine, .reset]))
      (fun t => statusIs 0x000 t && decide (t.ctx = Context.empty)) = true := by decide +kernel

/-! ### Witnesses: for each statement with hypotheses, a state and operands that meet them -/

/-- X[1] = 7, X[2] = 12, X[3] = 12, X[4] = 221, X[5] = 1, X[6] = 0 under ctx13. -/
def w13 : State := idle 32 [(0, 13), (1, 7), (2, 12), (3, 12), (4, 221), (5, 1), (6, 0)] ctx13
/-- The same registers with no context. -/
def w0 : State := idle 32 [(0, 13), (1, 7), (2, 14), (3, 0), (5, 1), (6, 2 ^ 32 - 1)] Context.empty
/-- A state in which every register is written. -/
def wAll : State := idle 32 ((List.finRange 16).map fun i => (i, 3 * i.val)) ctx13
/-- The fatal state of V-PR-11. -/
def wFatal : State := { w13 with status := ⟨false, true, true, false, .invariantViolation⟩, lastcmd := 0x4354, cmdlatch := 0x4354 }

theorem w13_inv : w13.Inv := by decide +kernel
theorem wFatal_inv : wFatal.Inv := by decide +kernel

theorem witness_DecodeAndEncodeAgree : decode 0x0000FFF4 = .cmd (.montmul 15 15 15) ∧ decode 0x00000001 = .cmd (.ctxinit 0) := by
  decide
theorem witness_DecoderAcceptsExactlyTheLegalWords :
    (legal 0x00000F01 = true ∧ opField 0x00000F01 = 1) ∧ (legal 0x00000FF2 = true ∧ opField 0x00000FF2 = 2) ∧
    (legal 0x00000FF3 = true ∧ opField 0x00000FF3 = 3) ∧ (legal 0x0000FFF4 = true ∧ opField 0x0000FFF4 = 4) ∧
    legal 0x00010004 = false ∧ legal 0x00001FF3 = false := by decide
theorem witness_StepRunsTheCommandInFlight :
    ((running w13 0x2234 [.engine, rd 0]).status.busy = true ∧
      decode (running w13 0x2234 [.engine, rd 0]).cmdlatch = .cmd (.montmul 3 2 2) ∧
      (running w13 0x2234 [.engine, rd 0]).schedule = .engine :: [rd 0]) ∧
    ((running w13 0x2234 []).status.busy = true ∧ (running w13 0x2234 []).schedule = []) ∧
    ((running w13 0x5 [.engine]).status.busy = true ∧
      decode (running w13 0x5 [.engine]).cmdlatch = .illegal .reservedOpcode ∧
      (running w13 0x5 [.engine]).schedule = .engine :: []) := by decide +kernel
theorem witness_IllegalWordCompletesWithIllegalCommand :
    (running w0 0x5 []).status.busy = true ∧ decode (running w0 0x5 []).cmdlatch = .illegal .reservedOpcode ∧
    decode (running w0 0x10002234 []).cmdlatch = .illegal .reservedBits := by decide +kernel
theorem witness_NoContextCompletesWithNoContext : w0.ctx.valid = false := by decide +kernel
theorem witness_IdleEngineHoldsAllState :
    ((withTurns w13 [.engine]).status.busy = false ∧ (withTurns w13 [.engine]).schedule = .engine :: []) ∧
    w13.status.busy = false ∧ w13.schedule = [] := by decide +kernel
/-- One command of each kind that succeeds, and one that does not. -/
theorem witness_ResultsCommittedOnlyOnSuccess :
    after (exec (.ctxinit 0) w0) (fun t => decide (t.status.err = .none)) = true ∧
    after (exec (.tomont 9 1) w13) (fun t => decide (t.status.err = .none)) = true ∧
    after (exec (.frommont 9 1) w13) (fun t => decide (t.status.err = .none)) = true ∧
    after (exec (.montmul 9 1 2) w13) (fun t => decide (t.status.err = .none)) = true ∧
    after (exec (.ctxinit 2) w0) (fun t => decide (t.status.err ≠ .none)) = true := by decide +kernel
theorem witness_ErrorPriority :
    after (engineTurn (running w0 0x11 [])) (fun t => decide (t.status.err = .illegalCommand)) = true ∧
    (decode (running w0 0x122 []).cmdlatch = .cmd (.tomont 2 1) ∧
      after (engineTurn (running w0 0x122 [])) (fun t => decide (t.status.err = .noContext)) = true) ∧
    (decode (running w0 0x201 []).cmdlatch = .cmd (.ctxinit 2) ∧ ((running w0 0x201 []).readX 2).1 % 2 = 0 ∧
      after (engineTurn (running w0 0x201 [])) (fun t => decide (t.status.err = .invalidModulus)) = true) ∧
    (decode (running w13 0x5494 []).cmdlatch = .cmd (.montmul 9 4 5) ∧
      after (engineTurn (running w13 0x5494 [])) (fun t => decide (t.status.err = .invariantViolation)) = true) := by
  decide +kernel
theorem witness_CommandInFlightCompletes :
    (running w13 0x2234 [wr 0x9000 5, wr 0x010 1, rd 0xC]).status.busy = true ∧
    (running w13 0x2234 [wr 0x9000 5, wr 0x010 1, rd 0xC]).schedule =
      ([Access.write 0x40009000 4 5, .write 0x40000010 4 1, .read 0x4000000C 4]).map Turn.access ∧
    ∀ a ∈ [Access.write 0x40009000 4 5, .write 0x40000010 4 1, .read 0x4000000C 4],
      a.inWindow (running w13 0x2234 []).cfg = true ∧ a.admitted = true := by decide +kernel
/-- The moduli 13, 1 and 2^32 - 1. -/
theorem witness_CtxinitConstructsTheContext :
    w0.readX 0 = (13, w0) ∧ w0.readX 5 = (1, w0) ∧ w0.readX 6 = (2 ^ 32 - 1, w0) ∧ 13 % 2 = 1 ∧ (2 ^ 32 - 1) % 2 = 1 := by
  decide +kernel
/-- The moduli 0 and 14. -/
theorem witness_CtxinitRejectsAnEvenModulus : w0.readX 3 = (0, w0) ∧ w0.readX 2 = (14, w0) ∧ w13.readX 2 = (12, w13) := by
  decide +kernel
theorem witness_CtxinitFrame : after (exec (.ctxinit 0) w13) (fun t => decide (t.draws = w13.draws)) = true ∧ w13.Holds 0 13 := by
  decide +kernel
theorem witness_ModulusOne :
    w0.Holds 5 1 ∧ (idle 32 [(3, 0)] ⟨1, 1, 0, 1, true⟩).ctx = ⟨1, 1, 0, 1, true⟩ ∧
    (idle 32 [(3, 0)] ⟨1, 1, 0, 1, true⟩).Holds 3 0 := by decide +kernel
theorem witness_LargestModulus : w0.cfg.wf = true ∧ w0.Holds 6 (2 ^ w0.cfg.W - 1) := by decide +kernel
/-- N = 13 and N = 1. -/
theorem witness_ConstructionInvariants :
    after (exec (.ctxinit 0) w0) (fun t => decide (t.status.err = .none ∧ 3 ≤ t.ctx.n)) = true ∧
    after (exec (.ctxinit 5) w0) (fun t => decide (t.status.err = .none ∧ t.ctx.n = 1)) = true := by decide +kernel
/-- The values 7, 0 and 221 (above N). -/
theorem witness_TomontEntersTheDomain :
    w13.Inv ∧ w13.ctx.valid = true ∧ w13.readX 1 = (7, w13) ∧ w13.readX 6 = (0, w13) ∧ w13.readX 4 = (221, w13) := by
  decide +kernel
theorem witness_FrommontLeavesTheDomain :
    w13.Inv ∧ w13.ctx.valid = true ∧ w13.readX 2 = (12, w13) ∧ w13.readX 0 = (13, w13) := by decide +kernel
theorem witness_DomainRoundTrip : w13.Inv ∧ w13.ctx.valid = true ∧ w13.Holds 2 12 ∧ w13.Holds 4 221 := by decide +kernel
/-- The largest operands in range, 12 and 12. -/
theorem witness_MontmulOfInRangeOperands :
    w13.Inv ∧ w13.ctx.valid = true ∧ w13.readX 2 = (12, w13) ∧ w13.readX 3 = (12, w13) ∧ 12 < w13.ctx.n := by decide +kernel
/-- 221 and 1 reach u = 2N = 26 exactly; 12 and 12 stay below. -/
theorem witness_MontmulOfAnyOperands :
    w13.Inv ∧ w13.ctx.valid = true ∧ w13.readX 4 = (221, w13) ∧ w13.readX 5 = (1, w13) ∧
    2 * w13.ctx.n = (221 * 1 + 221 * 1 % 2 ^ 4 * 11 % 2 ^ 4 * 13) / 2 ^ 4 ∧
    w13.readX 2 = (12, w13) ∧ (12 * 12 + 12 * 12 % 2 ^ 4 * 11 % 2 ^ 4 * 13) / 2 ^ 4 < 2 * w13.ctx.n := by decide +kernel
theorem witness_MontmulFatalExactlyAtTwoN :
    w13.Inv ∧ w13.ctx.valid = true ∧ w13.status.fatal = false ∧ w13.readX 4 = (221, w13) ∧ w13.readX 5 = (1, w13) ∧
    after (exec (.montmul 9 4 5) w13) (fun t => t.status.fatal) = true ∧
    w13.readX 2 = (12, w13) ∧ w13.readX 3 = (12, w13) ∧ 12 < w13.ctx.n := by decide +kernel
theorem witness_RedcDivisionIsExact : makeContext 13 = some ctx13 ∧ makeContext 1 = some ⟨1, 1, 0, 1, true⟩ := by decide +kernel
theorem witness_HomomorphismSequence :
    w13.Inv ∧ w13.ctx.valid = true ∧ w13.Holds 1 7 ∧ w13.Holds 2 12 ∧ 7 < w13.ctx.n ∧ 12 < w13.ctx.n ∧
    (7 : RegIdx) ≠ 2 ∧ (7 : RegIdx) ≠ 8 := by decide +kernel
theorem witness_ResultsLieBelowTheModulus :
    w13.Inv ∧ w13.ctx.valid = true ∧
    after (exec (.tomont 9 4) w13) (fun t => decide (t.status.err = .none)) = true ∧
    after (exec (.frommont 9 4) w13) (fun t => decide (t.status.err = .none)) = true ∧
    after (exec (.montmul 9 2 5) w13) (fun t => decide (t.status.err = .none)) = true := by decide +kernel
theorem witness_OutcomeDependsOnlyOnSourcesAndContext :
    w13.cfg = wFatal.cfg ∧ w13.ctx = wFatal.ctx ∧ w13.Holds 2 12 ∧ w13.Holds 3 12 ∧ wFatal.Holds 3 12 ∧ wFatal.Holds 2 12 ∧
    after (exec (.montmul 9 2 3) w13) (fun t => decide (t.status.err = .none)) = true := by decide +kernel
theorem witness_ResultCommandsFrame :
    after (exec (.montmul 9 1 2) w13) (fun t => decide (t.draws = w13.draws)) = true ∧ w13.Holds 1 7 ∧ w13.Holds 2 12 := by
  decide +kernel
theorem witness_RegisterReads : w13.Holds 1 7 ∧ w13.cfg.wf = true ∧ (w13.reg 9).known = 0 ∧ 0 < w13.cfg.W / 32 := by
  decide +kernel

/-- A misaligned, a short and an admitted access, at the ends of the window. -/
theorem witness_UnadmittedAccessIsABusError :
    (withTurns w13 [rd 0x002]).schedule = .access (.read 0x40000002 4) :: [] ∧
    ¬ ((Access.read 0x40000002 4).size = 4 ∧ (Access.read 0x40000002 4).addr % 4 = 0) ∧
    ¬ ((Access.write 0x4000FFFC 2 1).size = 4 ∧ (Access.write 0x4000FFFC 2 1).addr % 4 = 0) ∧
    ((Access.read 0x4000FFFC 4).size = 4 ∧ (Access.read 0x4000FFFC 4).addr % 4 = 0) ∧
    w13.cfg.base ≤ 0x40000002 ∧ 0x4000FFFC < w13.cfg.base + 0x10000 := by decide +kernel
theorem witness_AccessOutsideTheWindowIsNotDecoded :
    (withTurns w13 [rd 0x10000]).schedule = .access (.read 0x40010000 4) :: [] ∧ w13.cfg.base + 0x10000 ≤ 0x40010000 ∧
    0x3FFFFFFC < w13.cfg.base := by decide +kernel
theorem witness_IdentificationRegisters :
    w13.cfg.wf = true ∧ (withTurns w13 [rd 0]).schedule = .access (.read w13.cfg.base 4) :: [] ∧
    (withTurns w13 [rd 4]).schedule = .access (.read (w13.cfg.base + 0x004) 4) :: [] ∧
    (withTurns w13 [wr 4 9]).schedule = .access (.write (w13.cfg.base + 0x004) 4 9) :: [] := by decide +kernel
/-- Busy and fatal states among them. -/
theorem witness_ControlRegister :
    w13.cfg.wf = true ∧ (running w13 1 [wr 8 1]).schedule = .access (.write (w13.cfg.base + 0x008) 4 1) :: [] ∧
    (withTurns wFatal [rd 8]).schedule = .access (.read (wFatal.cfg.base + 0x008) 4) :: [] := by decide +kernel
theorem witness_StatusRegisterLayout :
    w13.cfg.wf = true ∧ (withTurns wFatal [rd 0xC]).schedule = .access (.read (wFatal.cfg.base + 0x00C) 4) :: [] ∧
    (withTurns w13 [wr 0xC 9]).schedule = .access (.write (w13.cfg.base + 0x00C) 4 9) :: [] := by decide +kernel
theorem witness_CmdWriteIgnoredWhileFatal :
    wFatal.cfg.wf = true ∧ wFatal.status.fatal = true ∧
    (withTurns wFatal [wr 0x10 1]).schedule = .access (.write (wFatal.cfg.base + 0x010) 4 1) :: [] := by decide +kernel
theorem witness_CmdWriteDroppedWhileBusy :
    (running w13 0x2234 [wr 0x10 1]).cfg.wf = true ∧ (running w13 0x2234 [wr 0x10 1]).status.fatal = false ∧
    (running w13 0x2234 [wr 0x10 1]).status.busy = true ∧
    (running w13 0x2234 [wr 0x10 1]).schedule = .access (.write (w13.cfg.base + 0x010) 4 1) :: [] := by decide +kernel
theorem witness_CmdWriteAcceptedWhenIdle :
    w13.cfg.wf = true ∧ w13.status.fatal = false ∧ w13.status.busy = false ∧
    (withTurns w13 [wr 0x10 0]).schedule = .access (.write (w13.cfg.base + 0x010) 4 0) :: [] := by decide +kernel
theorem witness_AckWrite :
    ((withTurns w13 [wr 0x14 1]).schedule = .access (.write (w13.cfg.base + 0x014) 4 1) :: [] ∧
      (1#32).getLsbD 0 = true ∧ w13.status.fatal = false ∧ w13.cfg.wf = true) ∧
    ((withTurns wFatal [wr 0x14 1]).schedule = .access (.write (wFatal.cfg.base + 0x014) 4 1) :: [] ∧ wFatal.status.fatal = true) ∧
    ((withTurns w13 [wr 0x14 2]).schedule = .access (.write (w13.cfg.base + 0x014) 4 2) :: [] ∧ (2#32).getLsbD 0 = false) ∧
    (withTurns w13 [rd 0x14]).schedule = .access (.read (w13.cfg.base + 0x014) 4) :: [] := by decide +kernel
theorem witness_LastcmdAndCtxkReads :
    (withTurns w13 [rd 0x1C]).Inv ∧ (withTurns w13 [rd 0x1C]).schedule = .access (.read (w13.cfg.base + 0x01C) 4) :: [] ∧
    (withTurns w13 [rd 0x18]).schedule = .access (.read (w13.cfg.base + 0x018) 4) :: [] ∧
    (withTurns w13 [rd 0x10]).schedule = .access (.read (w13.cfg.base + 0x010) 4) :: [] ∧
    (withTurns w13 [wr 0x18 5]).schedule = .access (.write (w13.cfg.base + 0x018) 4 5) :: [] := by decide +kernel
/-- The first and the last word of X[15]'s window: below L and beyond it. -/
theorem witness_XWindowRead :
    wAll.cfg.wf = true ∧ wAll.Holds 15 45 ∧ 0 < wAll.cfg.W / 32 ∧ wAll.cfg.W / 32 ≤ 511 ∧
    (withTurns wAll [rd 0xF800]).schedule = .access (.read (wAll.cfg.base + 0x8000 + 0x800 * (15 : RegIdx).val + 4 * 0) 4) :: [] ∧
    (withTurns wAll [rd 0xFFFC]).schedule = .access (.read (wAll.cfg.base + 0x8000 + 0x800 * (15 : RegIdx).val + 4 * 511) 4) :: [] := by
  decide +kernel
theorem witness_ContextWindows :
    w13.cfg.wf = true ∧ (0x0800, w13.ctx.n) ∈ [(0x0800, w13.ctx.n), (0x1000, w13.ctx.rinv), (0x1800, w13.ctx.nprime)] ∧
    (withTurns w13 [rd 0x0800]).schedule = .access (.read (w13.cfg.base + 0x0800 + 4 * 0) 4) :: [] ∧
    (withTurns w13 [rd 0x0FFC]).schedule = .access (.read (w13.cfg.base + 0x0800 + 4 * 511) 4) :: [] ∧
    (withTurns w13 [wr 0x0800 9]).schedule = .access (.write (w13.cfg.base + 0x0800 + 4 * 0) 4 9) :: [] := by decide +kernel
theorem witness_XWindowWrite :
    (withTurns w13 [wr 0x8000 9]).Inv ∧ w13.status.busy = false ∧
    (withTurns w13 [wr 0x8000 9]).schedule = .access (.write (w13.cfg.base + 0x8000 + 0x800 * (0 : RegIdx).val + 4 * 0) 4 9) :: [] ∧
    (withTurns w13 [wr 0x8004 9]).schedule = .access (.write (w13.cfg.base + 0x8000 + 0x800 * (0 : RegIdx).val + 4 * 1) 4 9) :: [] ∧
    0 < w13.cfg.W / 32 ∧ w13.cfg.W / 32 ≤ 1 := by decide +kernel
/-- X[9], unwritten since reset. -/
theorem witness_XWordReadsBackAsWritten :
    (withTurns w13 [wr 0xC800 9, rd 0xC800]).Inv ∧ 0 < w13.cfg.W / 32 ∧ w13.status.busy = false ∧
    (withTurns w13 [wr 0xC800 9, rd 0xC800]).schedule =
      .access (.write (w13.cfg.base + 0x8000 + 0x800 * (9 : RegIdx).val + 4 * 0) 4 9) ::
      .access (.read (w13.cfg.base + 0x8000 + 0x800 * (9 : RegIdx).val + 4 * 0) 4) :: [] := by decide +kernel
/-- Two words written into a register never written before. -/
theorem witness_HostWrxWritesTheRegister :
    (withTurns (idle 64 [] ctx64) (hostWRX ⟨64, 0x40000000⟩ 9 0x123456789ABCDEF0)).Inv ∧
    (idle 64 [] ctx64).status.busy = false ∧ 0x123456789ABCDEF0 < 2 ^ (idle 64 [] ctx64).cfg.W := by decide +kernel
/-- A word below L and one beyond it. -/
theorem witness_XWriteDroppedWhileBusy :
    (running w13 0x2234 [wr 0x9000 5]).cfg.wf = true ∧ (running w13 0x2234 [wr 0x9000 5]).status.busy = true ∧
    (running w13 0x2234 [wr 0x9000 5]).schedule =
      .access (.write (w13.cfg.base + 0x8000 + 0x800 * (2 : RegIdx).val + 4 * 0) 4 5) :: [] ∧
    (running w13 0x2234 [wr 0x9004 5]).schedule =
      .access (.write (w13.cfg.base + 0x8000 + 0x800 * (2 : RegIdx).val + 4 * 1) 4 5) :: [] := by decide +kernel
/-- The boundary offsets 0x020, 0x7FC, 0x2000, 0x7FFC, and a word beyond L of a context and of an X window. -/
theorem witness_ReservedSpace :
    w13.cfg.wf = true ∧ (withTurns w13 [rd 0x020]).schedule = .access (.read (w13.cfg.base + 0x020) 4) :: [] ∧
    (withTurns w13 [wr 0x7FFC 1]).schedule = .access (.write (w13.cfg.base + 0x7FFC) 4 1) :: [] ∧
    (∀ off ∈ [0x0020, 0x07FC, 0x2000, 0x7FFC],
      ((0x0020 ≤ off ∧ off < 0x0800) ∨ (0x2000 ≤ off ∧ off < 0x8000)) ∧ off % 4 = 0 ∧ off < 0x10000) ∧
    (∀ off ∈ [0x0804, 0x1FFC, 0x8004, 0xFFFC], w13.cfg.W / 32 ≤ off % 0x800 / 4 ∧ off % 4 = 0 ∧ off < 0x10000) := by
  decide +kernel
theorem witness_ReadsHaveNoSideEffect :
    (Access.read 0x40008000 4).inWindow wAll.cfg = true ∧ 0x40008000 % 4 = 0 ∧
    (withTurns wAll [rd 0x8000, rd 0x8000]).schedule = .access (.read 0x40008000 4) :: .access (.read 0x40008000 4) :: [] ∧
    ∀ i : RegIdx, wAll.Holds i (3 * i.val) := by decide +kernel
/-- The first and the last byte of X[15] for W = 32. -/
theorem witness_LittleEndianByteImage : wAll.cfg.wf = true ∧ wAll.Holds 15 45 ∧ 0 < wAll.cfg.W / 8 ∧ 3 < wAll.cfg.W / 8 := by
  decide +kernel
theorem witness_InterruptOutput :
    after (engineTurn { running w13 0x2234 [] with ie := true }) (fun t => t.irq) = true ∧
    (running w13 0x2234 []).status.busy = true ∧ (1#32).getLsbD 0 = true ∧ w13.status.fatal = false ∧
    w13.status.busy = false := by decide +kernel
theorem witness_ResetEventValues : (withTurns wFatal [.reset, .engine]).schedule = .reset :: [.engine] := by decide +kernel
theorem witness_InvariantHoldsAfterReset : Config.wf ⟨16384, 0x10000⟩ = true := by decide
/-- A step of each kind from a state that meets the invariant. -/
theorem witness_EveryStepKeepsInvariant_engine :
    (running w13 0x2234 []).Inv ∧ after (step (running w13 0x2234 [])) (fun _ => true) = true := by decide +kernel
theorem witness_EveryStepKeepsInvariant_host :
    (withTurns w13 [wr 0x8000 9]).Inv ∧ after (step (withTurns w13 [wr 0x8000 9])) (fun _ => true) = true := by decide +kernel
theorem witness_EveryStepKeepsInvariant_reset :
    (withTurns wFatal [.reset]).Inv ∧ after (step (withTurns wFatal [.reset])) (fun _ => true) = true := by decide +kernel
theorem witness_FatalStateIsSticky :
    (withTurns wFatal [wr 0x014 1]).Inv ∧ (withTurns wFatal [wr 0x014 1]).status.fatal = true ∧
    (∀ rest, (withTurns wFatal [wr 0x014 1]).schedule ≠ .reset :: rest) ∧
    after (step (withTurns wFatal [wr 0x014 1])) (fun _ => true) = true :=
  ⟨by decide +kernel, by decide +kernel, fun rest h => (by cases h), by decide +kernel⟩
theorem witness_FatalOnlyByMontmulOutOfRange :
    (running w13 0x5494 []).Inv ∧ (running w13 0x5494 []).status.fatal = false ∧
    after (step (running w13 0x5494 [])) (fun t => t.status.fatal) = true := by decide +kernel
theorem witness_ContextWrittenOnlyByCtxinit :
    after (step (running w0 0x0001 [])) (fun t => decide (t.ctx ≠ w0.ctx)) = true := by decide +kernel
/-- A change by the host and a change by a command. -/
theorem witness_RegisterWriters :
    after (step (withTurns w13 [wr 0x8000 9])) (fun t => decide (t.reg 0 ≠ w13.reg 0)) = true ∧
    after (step (running w13 0x2234 [])) (fun t => decide (t.reg 3 ≠ w13.reg 3)) = true := by decide +kernel
theorem witness_ControlAndLatchWriters :
    (∀ rest, (withTurns w13 [wr 0x010 7]).schedule ≠ .reset :: rest) ∧
    after (step (withTurns w13 [wr 0x008 1])) (fun t => decide (t.ie ≠ w13.ie)) = true ∧
    after (step (withTurns w13 [wr 0x010 7])) (fun t => decide (t.lastcmd ≠ w13.lastcmd)) = true :=
  ⟨fun rest h => (by cases h), by decide +kernel, by decide +kernel⟩
/-- BUSY set, BUSY cleared with DONE set, OVR set, OVR cleared. -/
theorem witness_StatusFlagWriters :
    (∀ rest, (withTurns w13 [wr 0x010 7]).schedule ≠ .reset :: rest) ∧
    after (step (withTurns w13 [wr 0x010 7])) (fun t => t.status.busy) = true ∧
    after (step (running w13 0x2234 [])) (fun t => !t.status.busy && t.status.done) = true ∧
    after (step (running w13 0x2234 [wr 0x9000 1])) (fun t => t.status.ovr) = true ∧
    after (step (withTurns { w13 with status := ⟨false, true, false, true, .none⟩ } [wr 0x014 1]))
      (fun t => !t.status.ovr) = true :=
  ⟨fun rest h => (by cases h), by decide +kernel, by decide +kernel, by decide +kernel, by decide +kernel⟩
/-- DONE cleared by an accepted CMD write and by ACK, the fatal state included; ERR changed by a completion, by an
accepted CMD write and by ACK. -/
theorem witness_StatusFlagWriters_done_and_err :
    after (step (withTurns { w13 with status := ⟨false, true, false, false, .noContext⟩ } [wr 0x010 7]))
      (fun t => !t.status.done && decide (t.status.err = .none)) = true ∧
    after (step (withTurns { w13 with status := ⟨false, true, false, false, .noContext⟩ } [wr 0x014 1]))
      (fun t => !t.status.done && decide (t.status.err = .none)) = true ∧
    after (step (withTurns wFatal [wr 0x014 1])) (fun t => !t.status.done && decide (t.status.err = .invariantViolation)) = true ∧
    after (step (running w13 0x5 [])) (fun t => t.status.done && decide (t.status.err = .illegalCommand)) = true := by
  decide +kernel

end Sys2Proof.Tests
end

section
/-! PROOFS of the host's word writes (spec 00_scope.md R16; 20_memory.md R52, R53): one word write of an idle engine as
a step, a register loaded word by word, and the run of the writes of `WRX`. -/

namespace Sys2Proof.Machine

theorem Config.L_le_of_wf {c : Config} (h : c.wf = true) : c.L ≤ 512 := by
  obtain ⟨-, -, hle, -⟩ := (Config.wf_iff c).1 h
  unfold Config.L; omega

theorem Config.mul_L_of_wf {c : Config} (h : c.wf = true) : 32 * c.L = c.W := by
  obtain ⟨hmod, -, -, -⟩ := (Config.wf_iff c).1 h
  unfold Config.L; omega

theorem State.writeXWord_idle {s : State} {j : Nat} (i : RegIdx) (v : Word) (hb : s.status.busy = false)
    (hj : j < s.cfg.L) : s.writeXWord i j v = s.setReg i ((s.reg i).replaceWord s.cfg.W j v) := by
  simp [State.writeXWord, hb, hj]

/-- R53: while no command is in flight the host's write of a word below L is a step that replaces that word and changes
nothing else but the model's own turn and answer fields. -/
theorem step_hostWR_x {s : State} {i : RegIdx} {j : Nat} {v : Word} {rest : List Turn} (hw : s.cfg.wf = true)
    (hb : s.status.busy = false) (hj : j < s.cfg.L)
    (hs : s.schedule = hostWR s.cfg (0x8000 + 0x800 * i.val + 4 * j) v :: rest) :
    ∃ u, step s = .next u ∧ u.reg i = (s.reg i).replaceWord s.cfg.W j v ∧ (∀ k, k ≠ i → u.reg k = s.reg k) ∧
      u = { s with schedule := rest, resp := .writeDone, x := u.x } := by
  have hj512 : j < 512 := Nat.lt_of_lt_of_le hj (Config.L_le_of_wf hw)
  rw [hostWR, ← Nat.add_assoc, ← Nat.add_assoc] at hs
  have hstep := step_writeX hw hj512 hs
  rw [State.writeXWord_idle (s := { s with schedule := rest }) i v hb hj] at hstep
  exact ⟨_, hstep, s.reg_setReg_self i _, fun k hk => s.reg_setReg i k _ hk, rfl⟩

theorem wordOf_getLsbD (v j : Nat) {k : Nat} (h : k < 32) : (wordOf v j).getLsbD k = v.testBit (32 * j + k) := by
  rw [wordOf, BitVec.getLsbD_ofNat, Nat.testBit_shiftRight]
  simp [h]

/-- The register is canonical, and its bits below b are specified and are those of v. -/
structure XReg.LoadedTo (W v b : Nat) (r : XReg) : Prop where
  wf    : r.Wf W
  value : ∀ k < b, r.value.testBit k = v.testBit k
  known : ∀ k < b, r.known.testBit k = true

theorem XReg.Wf.loadedTo_zero {W : Nat} {r : XReg} (h : r.Wf W) (v : Nat) : r.LoadedTo W v 0 :=
  ⟨h, fun _ hk => absurd hk (Nat.not_lt_zero _), fun _ hk => absurd hk (Nat.not_lt_zero _)⟩

/-- Writing word j of v on top of the words below it. -/
theorem XReg.LoadedTo.replaceWord {W v j : Nat} {r : XReg} (h : r.LoadedTo W v (32 * j)) (hj : 32 * j + 32 ≤ W) :
    (r.replaceWord W j (wordOf v j)).LoadedTo W v (32 * (j + 1)) := by
  refine ⟨XReg.replaceWord_wf h.wf hj _, fun k hk => ?_, fun k hk => ?_⟩
  · rw [(XReg.replaceWord_testBit h.wf _ k).1]
    split
    · rw [wordOf_getLsbD v j (by omega), show 32 * j + (k - 32 * j) = k by omega]
    · exact h.value k (by omega)
  · rw [(XReg.replaceWord_testBit h.wf _ k).2]
    by_cases hk' : k < 32 * j
    · simp [h.known k hk']
    · simp; omega

/-- Two W-bit values that agree on their W bits are one. -/
theorem eq_of_testBit_eq_below {W a b : Nat} (ha : a < 2 ^ W) (hb : b < 2 ^ W)
    (h : ∀ k < W, a.testBit k = b.testBit k) : a = b := by
  rw [← and_fullMask_of_lt ha, ← and_fullMask_of_lt hb]
  refine Nat.eq_of_testBit_eq fun k => ?_
  rw [Nat.testBit_and, Nat.testBit_and, testBit_fullMask]
  by_cases hk : k < W <;> simp [hk, h]

/-- A register loaded to its full width is fully specified and holds v. -/
theorem XReg.LoadedTo.eq_full {W v : Nat} {r : XReg} (h : r.LoadedTo W v W) (hv : v < 2 ^ W) :
    r = ⟨v, fullMask W⟩ := by
  obtain ⟨hval, hknown, -⟩ := h.wf
  have hvalue : r.value = v := eq_of_testBit_eq_below hval hv h.value
  have hmask : r.known = fullMask W :=
    eq_of_testBit_eq_below hknown (fullMask_lt W) fun k hk => by simp [h.known k hk, testBit_fullMask, hk]
  cases r
  rw [← hvalue, ← hmask]

/-- The n writes of `WRX i, v` from word j on. -/
def hostWRXFrom (c : Config) (i : RegIdx) (v j n : Nat) : List Turn :=
  (List.range' j n).map fun j => hostWR c (0x8000 + 0x800 * i.val + 4 * j) (wordOf v j)

theorem hostWRX_eq_from (c : Config) (i : RegIdx) (v : Nat) : hostWRX c i v = hostWRXFrom c i v 0 c.L := by
  rw [hostWRX, hostWRXFrom, List.range_eq_range']

@[simp] theorem hostWRXFrom_zero (c : Config) (i : RegIdx) (v j : Nat) : hostWRXFrom c i v j 0 = [] := rfl

theorem hostWRXFrom_succ (c : Config) (i : RegIdx) (v j n : Nat) :
    hostWRXFrom c i v j (n + 1) =
      hostWR c (0x8000 + 0x800 * i.val + 4 * j) (wordOf v j) :: hostWRXFrom c i v (j + 1) n := rfl

/-- The run of the writes from word j on: X[i], loaded with v's words below j, is loaded with n more, and nothing else
changes but the model's own turn and answer fields. -/
theorem run_hostWRXFrom {i : RegIdx} {v : Nat} {rest : List Turn} (n : Nat) {j : Nat} {s : State}
    (hw : s.cfg.wf = true) (hb : s.status.busy = false) (hn : j + n ≤ s.cfg.L)
    (hr : (s.reg i).LoadedTo s.cfg.W v (32 * j)) (hs : s.schedule = hostWRXFrom s.cfg i v j n ++ rest) :
    ∃ t, core.run n s = .next t ∧ (t.reg i).LoadedTo s.cfg.W v (32 * (j + n)) ∧
      (∀ k, k ≠ i → t.reg k = s.reg k) ∧ t = { s with schedule := rest, resp := t.resp, x := t.x } := by
  induction n generalizing j s with
  | zero =>
    rw [hostWRXFrom_zero, List.nil_append] at hs
    exact ⟨s, rfl, hr, fun _ _ => rfl, by rw [← hs]⟩
  | succ n ih =>
    rw [hostWRXFrom_succ, List.cons_append] at hs
    obtain ⟨u, hstep, hui, huk, hu⟩ := step_hostWR_x hw hb (by omega) hs
    have hcfg : u.cfg = s.cfg := by rw [hu]
    have hload : (u.reg i).LoadedTo u.cfg.W v (32 * (j + 1)) := by
      rw [hui, hcfg]; exact hr.replaceWord (word_in_width (by omega))
    obtain ⟨t, hrun, ht, hframe, heq⟩ := ih (s := u) (hcfg ▸ hw) (by rw [hu]; exact hb) (by rw [hcfg]; omega)
      hload (by rw [hu])
    refine ⟨t, (core_run_succ n hstep).trans hrun, ?_, fun k hk => (hframe k hk).trans (huk k hk), by rw [heq, hu]⟩
    rw [← hcfg, show j + (n + 1) = j + 1 + n by omega]; exact ht

end Sys2Proof.Machine

open Sys2Proof Sys2Proof.Machine

/-- Settles O45, by induction on the words still to write: the L writes load X[i] to its full width. -/
theorem hostWrxWritesTheRegister : Obligations.HostWrxWritesTheRegister := by
  unfold Obligations.HostWrxWritesTheRegister
  intro s i v rest hinv hb hv hs
  obtain ⟨hw, hregs, -⟩ := hinv
  rw [hostWRX_eq_from] at hs
  obtain ⟨t, hrun, hload, hframe, heq⟩ :=
    run_hostWRXFrom s.cfg.L hw hb (by omega) ((hregs i).loadedTo_zero v) hs
  rw [Nat.zero_add, Config.mul_L_of_wf hw] at hload
  have hcfg : t.cfg = s.cfg := by rw [heq]
  exact ⟨t, hrun, ⟨hcfg ▸ hload.eq_full hv, hcfg ▸ hv⟩, hframe, heq⟩
end

section
/-! PROOFS of what one step can do: the effects of a command, of the engine's turn and of a step, each said once (spec
10_state.md R20 to R47; 40_command.md R85 to R95). -/

namespace Sys2Proof.Machine

/-- A source register read leaves the state as it was but for some count of draws. -/
theorem State.readX_snd_eq (s : State) (i : RegIdx) : ∃ k, (s.readX i).2 = { s with draws := k } :=
  ⟨_, s.readX_snd i⟩

theorem Context.Sound.n_lt_width {W : Nat} {c : Context} (h : c.Sound W) : c.n < 2 ^ W := h.2.1

/-- What a command can do to the state, where `k` is the count of draws after its source reads: report an error, install
a context, write its destination, or enter the fatal state. -/
inductive ExecEffect (i : Instr) (s : State) : State → Prop
  | error (k : Nat) (e : ErrCode) (he : e = .noContext ∨ e = .invalidModulus) :
      ExecEffect i s (({ s with draws := k } : State).complete e)
  | context (k : Nat) (r : RegIdx) (c : Context) (hi : i = .ctxinit r) (hv : c.valid = true)
      (hc : c.Sound s.cfg.W) : ExecEffect i s (({ s with draws := k, ctx := c } : State).complete .none)
  | result (k : Nat) (d : RegIdx) (y : Nat) (hd : destOf i = some d) (hv : s.ctx.valid = true)
      (hy : ∀ W, s.ctx.Sound W → y < s.ctx.n) :
      ExecEffect i s ((({ s with draws := k } : State).writeX d y).complete .none)
  | fatal (k : Nat) (d a b : RegIdx) (hi : i = .montmul d a b) :
      ExecEffect i s (({ s with draws := k } : State).raiseFatal .invariantViolation)

theorem exec_effect {i : Instr} {s t : State} (h : exec i s = .next t) : ExecEffect i s t := by
  obtain ⟨-, -, rfl⟩ | ⟨r, -, -, rfl⟩ | ⟨r, c, hi, hodd, hc, rfl⟩ | ⟨hv, d, y, k, hd, hy, rfl⟩ |
    ⟨-, d, a, b, k, hi, -, rfl⟩ := exec_cases h
  · exact .error s.draws _ (.inl rfl)
  · obtain ⟨k, hk⟩ := s.readX_snd_eq r
    rw [hk]
    exact .error k _ (.inr rfl)
  · obtain ⟨c', hc', -, hv, hsound⟩ := makeContext_sound hodd (s.readX_lt r)
    obtain rfl : c = c' := Option.some.inj (hc.symm.trans hc')
    obtain ⟨k, hk⟩ := s.readX_snd_eq r
    rw [hk]
    exact .context k r c hi hv hsound
  · exact .result k d y hd hv hy
  · exact .fatal k d a b hi

/-- A completion (R93, R142): BUSY is cleared, DONE set and OVR kept, and nothing changes but the registers, the
context, STATUS and the model's count of draws. -/
structure State.Completes (s t : State) : Prop where
  frame : t = { s with x := t.x, ctx := t.ctx, status := t.status, draws := t.draws }
  busy  : t.status.busy = false
  done  : t.status.done = true
  ovr   : t.status.ovr = s.status.ovr

theorem ExecEffect.completes {i : Instr} {s t : State} (h : ExecEffect i s t) : s.Completes t := by
  cases h <;> exact ⟨rfl, rfl, rfl, rfl⟩

/-- A command that changes the context is a CTXINIT, and it succeeds with a valid one (R24). -/
theorem ExecEffect.ctx_changed {i : Instr} {s t : State} (h : ExecEffect i s t) (hne : t.ctx ≠ s.ctx) :
    (∃ r, i = .ctxinit r) ∧ t.status.err = .none ∧ t.ctx.valid = true := by
  cases h with
  | error k e he => exact absurd rfl hne
  | context k r c hi hv hc => exact ⟨⟨r, hi⟩, rfl, hv⟩
  | result k d y hd hv hy => exact absurd rfl hne
  | fatal k d a b hi => exact absurd rfl hne

/-- A command that changes X[j] succeeds and names it as its destination (R20, R94). -/
theorem ExecEffect.reg_changed {i : Instr} {s t : State} {j : RegIdx} (h : ExecEffect i s t)
    (hne : t.reg j ≠ s.reg j) : destOf i = some j ∧ t.status.err = .none := by
  cases h with
  | error k e he => exact absurd rfl hne
  | context k r c hi hv hc => exact absurd rfl hne
  | result k d y hd hv hy =>
    by_cases hj : j = d
    · exact ⟨hj ▸ hd, rfl⟩
    · exact absurd (State.reg_writeX _ d j y hj) hne
  | fatal k d a b hi => exact absurd rfl hne

/-- The commands that have a destination. -/
theorem destOf_eq_some {i : Instr} {d : RegIdx} (h : destOf i = some d) :
    ∃ a b, i = .tomont d a ∨ i = .frommont d a ∨ i = .montmul d a b := by
  cases i with
  | ctxinit r => cases h
  | tomont d' a => cases h; exact ⟨a, a, .inl rfl⟩
  | frommont d' a => cases h; exact ⟨a, a, .inr (.inl rfl)⟩
  | montmul d' a b => cases h; exact ⟨a, b, .inr (.inr rfl)⟩

/-- The engine's turn with a command in flight: an illegal word, or a command's effect (R90, R91). -/
theorem engineTurn_busy_cases {s t : State} (hb : s.status.busy = true) (h : engineTurn s = .next t) :
    t = s.complete .illegalCommand ∨ ∃ i, decode s.cmdlatch = .cmd i ∧ ExecEffect i s t := by
  obtain ⟨hb', -⟩ | ⟨-, -, ht⟩ | ⟨-, i, hi, hexec⟩ := engineTurn_cases h
  · rw [hb] at hb'; cases hb'
  · exact .inl ht
  · exact .inr ⟨i, hi, exec_effect hexec⟩

theorem engineTurn_completes {s t : State} (hb : s.status.busy = true) (h : engineTurn s = .next t) :
    s.Completes t := by
  obtain rfl | ⟨i, -, heff⟩ := engineTurn_busy_cases hb h
  · exact ⟨rfl, rfl, rfl, rfl⟩
  · exact heff.completes

theorem engineTurn_idle {s : State} (hb : s.status.busy = false) : engineTurn s = .next s := by
  simp [engineTurn, hb]

/-- STATUS after an ACK write with bit 0 = 1 (R38). -/
def Status.acked (st : Status) : Status :=
  { st with done := false, ovr := false, err := if st.fatal then st.err else .none }

@[simp] theorem Status.acked_busy (st : Status) : st.acked.busy = st.busy := rfl
@[simp] theorem Status.acked_done (st : Status) : st.acked.done = false := rfl
@[simp] theorem Status.acked_fatal (st : Status) : st.acked.fatal = st.fatal := rfl
@[simp] theorem Status.acked_ovr (st : Status) : st.acked.ovr = false := rfl

theorem Status.acked_err_of_fatal {st : Status} (h : st.fatal = true) : st.acked.err = st.err := by
  simp [Status.acked, h]

theorem Status.acked_err_of_not_fatal {st : Status} (h : st.fatal = false) : st.acked.err = .none := by
  simp [Status.acked, h]

theorem State.writeAck_of_bit (s : State) {v : Word} (h : v.getLsbD 0 = true) :
    s.writeAck v = { s with status := s.status.acked } := by
  simp [State.writeAck, h, Status.acked]

/-- The engine has the turn (log entry 4): it stands at the head of the schedule, or no turn is left. -/
def State.EngineHasTurn (s : State) : Prop := s.schedule = [] ∨ ∃ rest, s.schedule = .engine :: rest

/-- What a step can do: the reset event; nothing but to the model's own fields; a write to CTRL; an accepted write to
CMD; a write that is dropped with OVR; an ACK with bit 0 = 1; a write of one word of X[i]; the completion of the command
in flight. -/
inductive StepEffect (s : State) : State → Prop
  | reset (rest : List Turn) (hs : s.schedule = .reset :: rest) :
      StepEffect s ({ s with schedule := rest } : State).resetEvent
  | quiet (k : Nat) (rest : List Turn) (a : BusResp) : StepEffect s { s with draws := k, schedule := rest, resp := a }
  | ctrlWrite (v : Word) (rest : List Turn) (hs : s.schedule = .access (.write (s.cfg.base + 0x008) 4 v) :: rest) :
      StepEffect s { s.writeCtrl v with schedule := rest, resp := .writeDone }
  | accepted (v : Word) (rest : List Turn) (hs : s.schedule = .access (.write (s.cfg.base + 0x010) 4 v) :: rest)
      (hb : s.status.busy = false) (hf : s.status.fatal = false) :
      StepEffect s { s.accept v with schedule := rest, resp := .writeDone }
  | overrun (addr : Nat) (v : Word) (rest : List Turn) (hs : s.schedule = .access (.write addr 4 v) :: rest)
      (hb : s.status.busy = true) (haddr : addr = s.cfg.base + 0x010 ∨ s.cfg.base + 0x8000 ≤ addr) :
      StepEffect s { s with status := { s.status with ovr := true }, schedule := rest, resp := .writeDone }
  | acked (v : Word) (rest : List Turn) (hs : s.schedule = .access (.write (s.cfg.base + 0x014) 4 v) :: rest)
      (hv : v.getLsbD 0 = true) :
      StepEffect s { s with status := s.status.acked, schedule := rest, resp := .writeDone }
  | wordWrite (addr : Nat) (i : RegIdx) (j : Nat) (v : Word) (rest : List Turn)
      (hs : s.schedule = .access (.write addr 4 v) :: rest) (hb : s.status.busy = false) (hj : j < s.cfg.L)
      (hlo : s.cfg.base + 0x8000 + 0x800 * i.val ≤ addr)
      (hhi : addr < s.cfg.base + 0x8000 + 0x800 * i.val + 0x800) :
      StepEffect s { s.setReg i ((s.reg i).replaceWord s.cfg.W j v) with schedule := rest, resp := .writeDone }
  | completed (rest : List Turn) (t : State) (hturn : s.EngineHasTurn) (hb : s.status.busy = true)
      (h : engineTurn { s with schedule := rest } = .next t) : StepEffect s t

/-- Where a write lands in X[i]'s window, in bus addresses (R51). -/
theorem addr_of_locate_x {base addr j : Nat} {i : RegIdx} (hlo : base ≤ addr) (hhi : addr < base + 0x10000)
    (hl : locate (addr - base) = .x i j) :
    base + 0x8000 + 0x800 * i.val ≤ addr ∧ addr < base + 0x8000 + 0x800 * i.val + 0x800 := by
  obtain ⟨-, -, -, hx⟩ := locate_inv (addr - base)
  obtain ⟨hj, heq⟩ := hx i j hl (by omega)
  omega

/-- An admitted access inside the window, as a step's effect. -/
theorem serve_effect {s : State} {a : Access} {rest : List Turn} (hs : s.schedule = .access a :: rest)
    (hw : a.inWindow s.cfg = true) (ha : a.admitted = true) :
    StepEffect s (({ s with schedule := rest } : State).serve a) := by
  obtain ⟨hlo, hhi⟩ := (Access.inWindow_iff _ _).1 hw
  obtain ⟨hsize, -⟩ := (Access.admitted_iff _).1 ha
  obtain ⟨k, w, ht⟩ | ⟨addr, n, v, rfl, hcase⟩ := ({ s with schedule := rest } : State).serve_cases a
  · rw [ht]; exact .quiet k rest _
  obtain rfl : n = 4 := hsize
  obtain ⟨hctrl, hcmd, hack, -⟩ := locate_inv (addr - s.cfg.base)
  obtain ⟨hl, ht⟩ | ⟨hl, ht⟩ | ⟨hl, ht⟩ | ⟨i, j, hl, ht⟩ | ht := hcase <;> rw [ht]
  · obtain rfl : addr = s.cfg.base + 0x008 := by have := hctrl hl; omega
    exact .ctrlWrite v rest hs
  · obtain rfl : addr = s.cfg.base + 0x010 := by have := hcmd hl; omega
    obtain ⟨-, ht⟩ | ⟨-, hb, ht⟩ | ⟨hf, hb, ht⟩ := ({ s with schedule := rest } : State).writeCmd_cases v <;> rw [ht]
    · exact .quiet s.draws rest _
    · exact .overrun _ v rest hs hb (.inl rfl)
    · exact .accepted v rest hs hb hf
  · obtain rfl : addr = s.cfg.base + 0x014 := by have := hack hl; omega
    obtain ⟨-, ht⟩ | ⟨hv, ht⟩ := ({ s with schedule := rest } : State).writeAck_cases v <;> rw [ht]
    · exact .quiet s.draws rest _
    · exact .acked v rest hs hv
  · obtain ⟨hxlo, hxhi⟩ := addr_of_locate_x (addr := addr) hlo hhi hl
    obtain ⟨hb, ht⟩ | ⟨hb, hj, ht⟩ | ⟨-, -, ht⟩ :=
      ({ s with schedule := rest } : State).writeXWord_cases i j v <;> rw [ht]
    · exact .overrun addr v rest hs hb (.inr (by omega))
    · exact .wordWrite addr i j v rest hs hb hj hxlo hxhi
    · exact .quiet s.draws rest _
  · exact .quiet s.draws rest _

theorem step_effect {s t : State} (h : step s = .next t) : StepEffect s t := by
  obtain ⟨rest, hs, rfl⟩ | ⟨a, rest, hs, hw, ha, rfl⟩ | ⟨rest, hs, ht⟩ := step_cases h
  · exact .reset rest hs
  · exact serve_effect hs hw ha
  · have hturn : s.EngineHasTurn := hs.elim (fun h => .inr ⟨rest, h⟩) (fun h => .inl h.1)
    cases hb : s.status.busy with
    | true => exact .completed rest t hturn hb ht
    | false =>
      rw [engineTurn_idle (s := { s with schedule := rest }) hb, Host.Outcome.next.injEq] at ht
      rw [← ht]
      exact .quiet s.draws rest s.resp

end Sys2Proof.Machine
end

section
/-! PROOFS of the machine invariant (spec 10_state.md R31, R32, R36, R43, R44): it holds after reset, each update of the
state keeps it, and so does every step. -/

namespace Sys2Proof.Machine

theorem State.resetWith_inv {c : Config} (h : c.wf = true) : (State.resetWith c).Inv := by
  have hstatus : (State.resetWith c).status = Status.cleared := rfl
  have hvalid : (State.resetWith c).ctx.valid = false := rfl
  refine ⟨h, fun i => ?_, by simp [hvalid], fun _ => rfl, ?_, ?_, ?_, ?_⟩
  · rw [State.reg_resetWith]; exact XReg.unspecified_wf _
  all_goals simp [hstatus, Status.cleared]

section Updates
variable {s : State}

/-- The invariant says nothing of the model's own fields. -/
theorem State.Inv.setOwnFields (h : s.Inv) (k : Nat) (turns : List Turn) (a : BusResp) :
    ({ s with draws := k, schedule := turns, resp := a } : State).Inv := h

theorem State.Inv.not_fatal_of_busy (h : s.Inv) (hb : s.status.busy = true) : s.status.fatal = false := by
  obtain ⟨-, -, -, -, -, hbf, -⟩ := h
  simpa using fun hf => hbf ⟨hb, hf⟩

theorem State.Inv.not_busy_of_fatal (h : s.Inv) (hf : s.status.fatal = true) : s.status.busy = false := by
  obtain ⟨-, -, -, -, -, hbf, -⟩ := h
  simpa using fun hb => hbf ⟨hb, hf⟩

theorem State.Inv.err_of_fatal (h : s.Inv) (hf : s.status.fatal = true) : s.status.err = .invariantViolation := by
  obtain ⟨-, -, -, -, -, -, hfe, -⟩ := h
  exact hfe.1 hf

theorem State.Inv.writeCtrl (h : s.Inv) (v : Word) : (s.writeCtrl v).Inv := h

theorem State.Inv.setOvr (h : s.Inv) : ({ s with status := { s.status with ovr := true } } : State).Inv := h

theorem State.Inv.complete (h : s.Inv) (hf : s.status.fatal = false) {e : ErrCode} (he : e ≠ .invariantViolation) :
    (s.complete e).Inv := by
  obtain ⟨hw, hregs, hsound, hempty, -, -, -, -⟩ := h
  exact ⟨hw, hregs, hsound, hempty, by simp, by simp, by simp [hf, he], by simp⟩

theorem State.Inv.raiseFatal (h : s.Inv) : (s.raiseFatal .invariantViolation).Inv := by
  obtain ⟨hw, hregs, hsound, hempty, -, -, -, -⟩ := h
  exact ⟨hw, hregs, hsound, hempty, by simp, by simp, by simp, by simp⟩

theorem State.Inv.setCtx (h : s.Inv) {c : Context} (hv : c.valid = true) (hc : c.Sound s.cfg.W) :
    ({ s with ctx := c } : State).Inv := by
  obtain ⟨hw, hregs, -, -, hstatus⟩ := h
  exact ⟨hw, hregs, fun _ => hc, fun h => by simp [hv] at h, hstatus⟩

theorem State.Inv.setReg (h : s.Inv) (i : RegIdx) {r : XReg} (hr : r.Wf s.cfg.W) : (s.setReg i r).Inv := by
  obtain ⟨hw, hregs, hrest⟩ := h
  refine ⟨hw, fun j => ?_, hrest⟩
  by_cases hj : j = i
  · subst hj; rw [State.reg_setReg_self]; exact hr
  · rw [State.reg_setReg s i j r hj]; exact hregs j

/-- A result below the modulus of a valid context fits the register. -/
theorem State.Inv.writeX (h : s.Inv) (d : RegIdx) {y : Nat} (hv : s.ctx.valid = true) (hy : y < s.ctx.n) :
    (s.writeX d y).Inv := by
  obtain ⟨-, -, hsound, -⟩ := id h
  exact h.setReg d (XReg.full_wf (Nat.lt_trans hy (hsound hv).n_lt_width))

theorem State.Inv.accept (h : s.Inv) (hf : s.status.fatal = false) (v : Word) : (s.accept v).Inv := by
  obtain ⟨hw, hregs, hsound, hempty, -, -, -, -⟩ := h
  exact ⟨hw, hregs, hsound, hempty, by simp, by simp [hf], by simp [hf], by simp⟩

theorem State.Inv.acked (h : s.Inv) : ({ s with status := s.status.acked } : State).Inv := by
  obtain ⟨hw, hregs, hsound, hempty, -, hbf, hfe, hbl⟩ := id h
  refine ⟨hw, hregs, hsound, hempty, by simp, hbf, ?_, fun hb => ?_⟩
  · cases hf : s.status.fatal with
    | true => simp [Status.acked_err_of_fatal hf, hf, hfe.1 hf]
    | false => simp [Status.acked_err_of_not_fatal hf, hf]
  · obtain ⟨-, hlatch⟩ := hbl hb
    exact ⟨Status.acked_err_of_not_fatal (h.not_fatal_of_busy hb), hlatch⟩

end Updates

/-- A command keeps the invariant: what it installs is a sound context, what it writes fits the register, and it reports
INVARIANT_VIOLATION only as it enters the fatal state. -/
theorem ExecEffect.inv {i : Instr} {s t : State} (h : ExecEffect i s t) (hinv : s.Inv)
    (hf : s.status.fatal = false) : t.Inv := by
  cases h with
  | error k e he =>
    exact (hinv.setOwnFields k s.schedule s.resp).complete hf (by rcases he with rfl | rfl <;> simp)
  | context k r c hi hv hc =>
    exact ((hinv.setOwnFields k s.schedule s.resp).setCtx hv hc).complete hf (by simp)
  | result k d y hd hv hy =>
    obtain ⟨-, -, hsound, -⟩ := id hinv
    exact ((hinv.setOwnFields k s.schedule s.resp).writeX d hv (hy _ (hsound hv))).complete hf (by simp)
  | fatal k d a b hi => exact (hinv.setOwnFields k s.schedule s.resp).raiseFatal

theorem engineTurn_inv {s t : State} (hinv : s.Inv) (hb : s.status.busy = true) (h : engineTurn s = .next t) :
    t.Inv := by
  have hf := hinv.not_fatal_of_busy hb
  obtain rfl | ⟨i, -, heff⟩ := engineTurn_busy_cases hb h
  · exact hinv.complete hf (by simp)
  · exact heff.inv hinv hf

theorem StepEffect.inv {s t : State} (h : StepEffect s t) (hinv : s.Inv) : t.Inv := by
  cases h with
  | reset rest hs =>
    obtain ⟨hw, -⟩ := hinv
    exact (State.resetWith_inv hw).setOwnFields _ _ _
  | quiet k rest a => exact hinv.setOwnFields k rest a
  | ctrlWrite v rest hs => exact (hinv.writeCtrl v).setOwnFields _ rest _
  | accepted v rest hs hb hf => exact (hinv.accept hf v).setOwnFields _ rest _
  | overrun addr v rest hs hb haddr => exact hinv.setOvr.setOwnFields _ rest _
  | acked v rest hs hv => exact hinv.acked.setOwnFields _ rest _
  | wordWrite addr i j v rest hs hb hj hlo hhi =>
    obtain ⟨-, hregs, -⟩ := id hinv
    exact (hinv.setReg i (XReg.replaceWord_wf (hregs i) (word_in_width hj) v)).setOwnFields _ rest _
  | completed rest _ hturn hb h => exact engineTurn_inv (hinv.setOwnFields _ rest _) hb h

end Sys2Proof.Machine

open Sys2Proof Sys2Proof.Machine

/-- Settles O54, by the effects of a step: each of them keeps the invariant. -/
theorem everyStepKeepsInvariant : Obligations.EveryStepKeepsInvariant := by
  unfold Obligations.EveryStepKeepsInvariant
  intro s t hinv h
  exact (step_effect h).inv hinv

/-- Settles O53: the state after reset is idle, with no context and no bit of a register written. -/
theorem invariantHoldsAfterReset : Obligations.InvariantHoldsAfterReset := by
  unfold Obligations.InvariantHoldsAfterReset
  exact ⟨fun c h => State.resetWith_inv h, State.resetWith_inv (by decide)⟩
end

section
/-! PROOFS of who writes each piece of state (spec 10_state.md R20, R24, R30, R34, R35, R45, R47), each by the effects
of a step. -/

open Sys2Proof Sys2Proof.Machine

/-- Settles O55: in the fatal state no command is in flight, a CMD write is not accepted, and an ACK keeps ERR. -/
theorem fatalStateIsSticky : Obligations.FatalStateIsSticky := by
  unfold Obligations.FatalStateIsSticky
  intro s t hinv hfatal hreset h
  have hbusy := hinv.not_busy_of_fatal hfatal
  have herr : s.status.err.code = 4 := by rw [hinv.err_of_fatal hfatal]; rfl
  cases step_effect h with
  | reset rest hs => exact absurd hs (hreset rest)
  | quiet k rest a => exact ⟨hfatal, herr, hbusy, rfl, rfl⟩
  | ctrlWrite v rest hs => exact ⟨hfatal, herr, hbusy, rfl, rfl⟩
  | accepted v rest hs hb hf => simp [hfatal] at hf
  | overrun addr v rest hs hb haddr => exact ⟨hfatal, herr, hbusy, rfl, rfl⟩
  | acked v rest hs hv => exact ⟨hfatal, Status.acked_err_of_fatal hfatal ▸ herr, hbusy, rfl, rfl⟩
  | wordWrite addr i j v rest hs hb hj hlo hhi => exact ⟨hfatal, herr, hbusy, rfl, rfl⟩
  | completed rest _ hturn hb h => simp [hbusy] at hb

/-- Settles O57: of the effects of a step only reset and a completion touch the context, and of the commands only
CTXINIT. -/
theorem contextWrittenOnlyByCtxinit : Obligations.ContextWrittenOnlyByCtxinit := by
  unfold Obligations.ContextWrittenOnlyByCtxinit
  intro s t h hne
  cases step_effect h with
  | reset rest hs => exact .inl ⟨rest, hs⟩
  | quiet k rest a => exact absurd rfl hne
  | ctrlWrite v rest hs => exact absurd rfl hne
  | accepted v rest hs hb hf => exact absurd rfl hne
  | overrun addr v rest hs hb haddr => exact absurd rfl hne
  | acked v rest hs hv => exact absurd rfl hne
  | wordWrite addr i j v rest hs hb hj hlo hhi => exact absurd rfl hne
  | completed rest _ hturn hb h =>
    obtain rfl | ⟨i, hi, heff⟩ := engineTurn_busy_cases (s := { s with schedule := rest }) hb h
    · exact absurd rfl hne
    · obtain ⟨⟨r, rfl⟩, herr, hv⟩ := heff.ctx_changed hne
      exact .inr ⟨hturn, hb, heff.completes.busy, ⟨r, hi⟩, herr, hv⟩

/-- Settles O58: of the effects of a step only reset, the write of one word and a completion touch the registers, and a
command touches its destination only. -/
theorem registerWriters : Obligations.RegisterWriters := by
  unfold Obligations.RegisterWriters
  intro s t i h hne
  cases step_effect h with
  | reset rest hs => exact .inl ⟨rest, hs⟩
  | quiet k rest a => exact absurd rfl hne
  | ctrlWrite v rest hs => exact absurd rfl hne
  | accepted v rest hs hb hf => exact absurd rfl hne
  | overrun addr v rest hs hb haddr => exact absurd rfl hne
  | acked v rest hs hv => exact absurd rfl hne
  | wordWrite addr k j v rest hs hb hj hlo hhi =>
    by_cases hik : i = k
    · subst hik; exact .inr (.inl ⟨addr, v, rest, hs, hb, hlo, hhi⟩)
    · exact absurd (s.reg_setReg k i _ hik) hne
  | completed rest _ hturn hb h =>
    obtain rfl | ⟨c, hc, heff⟩ := engineTurn_busy_cases (s := { s with schedule := rest }) hb h
    · exact absurd rfl hne
    · obtain ⟨hd, herr⟩ := heff.reg_changed hne
      obtain ⟨a, b, hcase⟩ := destOf_eq_some hd
      refine .inr (.inr ⟨hturn, hb, heff.completes.busy, herr, a, b, ?_⟩)
      rcases hcase with rfl | rfl | rfl
      · exact .inl hc
      · exact .inr (.inl hc)
      · exact .inr (.inr hc)

/-- Settles O59: of the effects of a step only a CTRL write touches IE and only an accepted CMD write the latches. -/
theorem controlAndLatchWriters : Obligations.ControlAndLatchWriters := by
  unfold Obligations.ControlAndLatchWriters
  intro s t h hreset
  cases step_effect h with
  | reset rest hs => exact absurd hs (hreset rest)
  | quiet k rest a => simp
  | ctrlWrite v rest hs => exact ⟨rfl, fun _ => ⟨v, rest, hs⟩, by simp⟩
  | accepted v rest hs hb hf => exact ⟨rfl, by simp, fun _ => ⟨v, rest, hs, rfl, rfl, hb, hf⟩⟩
  | overrun addr v rest hs hb haddr => simp
  | acked v rest hs hv => simp
  | wordWrite addr i j v rest hs hb hj hlo hhi => simp
  | completed rest _ hturn hb h =>
    rw [(engineTurn_completes (s := { s with schedule := rest }) hb h).frame]
    simp

/-- Settles O60: what each effect of a step does to STATUS. -/
theorem statusFlagWriters : Obligations.StatusFlagWriters := by
  unfold Obligations.StatusFlagWriters
  intro s t h hreset accepted acked completed
  cases step_effect h with
  | reset rest hs => exact absurd hs (hreset rest)
  | quiet k rest a => simp +contextual
  | ctrlWrite v rest hs => simp +contextual
  | wordWrite addr i j v rest hs hb hj hlo hhi => simp +contextual
  | accepted v rest hs hb hf =>
    have hacc : accepted := ⟨hb, hf, v, rest, hs⟩
    simp +contextual [hacc, hb]
  | overrun addr v rest hs hb haddr =>
    have hdrop : ∃ addr v rest, s.schedule = .access (.write addr 4 v) :: rest ∧
        (addr = s.cfg.base + 0x010 ∨ s.cfg.base + 0x8000 ≤ addr) := ⟨addr, v, rest, hs, haddr⟩
    exact ⟨by simp +contextual, by simp +contextual, by simp +contextual, by simp +contextual,
      fun _ _ => ⟨hb, hdrop⟩, by simp, by simp⟩
  | acked v rest hs hv =>
    have hack : acked := ⟨v, rest, hs, hv⟩
    refine ⟨by simp +contextual, by simp +contextual, by simp, fun _ _ => .inr hack, by simp, fun _ _ => hack,
      fun herr => .inr (.inr ⟨hack, ?_⟩)⟩
    cases hf : s.status.fatal with
    | true => exact absurd (Status.acked_err_of_fatal hf) herr
    | false => exact ⟨rfl, Status.acked_err_of_not_fatal hf⟩
  | completed rest _ hturn hb h =>
    obtain ⟨-, hbusy, hdone, hovr⟩ := engineTurn_completes (s := { s with schedule := rest }) hb h
    have hcomp : completed := ⟨hb, hbusy, hturn⟩
    exact ⟨by simp [hbusy], fun _ _ => ⟨hcomp, hdone⟩, fun _ _ => hcomp, by simp [hdone],
      fun h0 h1 => by simp [hovr, h0] at h1, fun h1 h0 => by simp [hovr, h1] at h0, fun _ => .inl hcomp⟩

/-- Settles O50: a completion sets DONE and keeps IE; an ACK, an accepted CMD write and reset clear DONE. -/
theorem interruptOutput : Obligations.InterruptOutput := by
  unfold Obligations.InterruptOutput
  refine ⟨fun s => rfl, fun s t hb h => ?_, fun s v hv => ?_, fun s v hf hb => ?_, fun s => rfl⟩
  · obtain ⟨hframe, -, hdone, -⟩ := engineTurn_completes hb h
    have hie : t.ie = s.ie := by rw [hframe]
    simp [State.irq, hdone, hie]
  · simp [State.irq, State.writeAck_of_bit s hv]
  · simp [State.irq, State.writeCmd, hf, hb]
end

section
/-! PROOFS of the frames of the commands (spec 10_state.md R47; 40_command.md R94): a byte of the register window
depends only on the state its location shows, and a command's source reads draw nothing when the sources were written. -/

namespace Sys2Proof.Machine

/-- R51, R54: a byte of the register window reads the same in two states that agree on what its location shows: the
context only in STATUS, CTXK and the context windows, STATUS only in its own word, X[i] only in its own window. -/
theorem State.windowByte_congr {s t : State} {q : Nat} (hq : q < 0x10000) (hcfg : t.cfg = s.cfg)
    (hd : t.draws = s.draws) (hie : t.ie = s.ie) (hl : t.lastcmd = s.lastcmd)
    (hstatus : ¬ (0x0C ≤ q ∧ q < 0x10))
    (hctx : (0x18 ≤ q ∧ q < 0x1C) ∨ (0x800 ≤ q ∧ q < 0x2000) → t.ctx = s.ctx)
    (hx : ∀ i : RegIdx, 0x8000 + 0x800 * i.val ≤ q → q < 0x8000 + 0x800 * i.val + 0x800 → t.reg i = s.reg i) :
    t.windowByte q = s.windowByte q := by
  have hloc : (t.readLoc (locate (q - q % 4))).1 = (s.readLoc (locate (q - q % 4))).1 := by
    refine State.readLoc_congr _ hcfg hd hie hl (fun h => ?_) (fun h => ?_) (fun i j h => ?_)
    · have := locate_status h
      omega
    · obtain h | ⟨j, h⟩ := h
      · have := locate_ctxk h
        exact hctx (.inl (by omega))
      · have := locate_ctx h
        exact hctx (.inr (by omega))
    · obtain ⟨-, -, -, hinv⟩ := locate_inv (q - q % 4)
      obtain ⟨hj, hoff⟩ := hinv i j h (by omega)
      exact hx i (by omega) (by omega)
  rw [State.windowByte, State.windowByte, hloc]

@[simp] theorem State.commitProduct_draws (s : State) (rd : RegIdx) (o : Option Nat) :
    (s.commitProduct rd o).draws = s.draws := by
  cases o <;> rfl

@[simp] theorem State.constructContext_draws (s : State) (n : Nat) : (s.constructContext n).draws = s.draws := by
  unfold State.constructContext
  split
  · rfl
  · split <;> rfl

theorem State.needContext_draws {s : State} {body : State → State} (h : (body s).draws = s.draws) :
    (s.needContext body).draws = s.draws := by
  unfold State.needContext
  split
  · exact h
  · rfl

/-- R22: a command whose sources were written draws nothing. -/
theorem exec_draws_of_holds {i : Instr} {s t : State} {d a b : RegIdx} {va vb : Nat} (ha : s.Holds a va)
    (hb : s.Holds b vb) (hi : i ∈ [Instr.ctxinit a, Instr.tomont d a, Instr.frommont d a, Instr.montmul d a b])
    (h : exec i s = .next t) : t.draws = s.draws := by
  have hra := State.readX_of_holds ha
  have hrb := State.readX_of_holds hb
  simp only [List.mem_cons, List.not_mem_nil, or_false] at hi
  rcases hi with rfl | rfl | rfl | rfl <;> cases h
  · simp [hra]
  · exact State.needContext_draws (by simp [hra])
  · exact State.needContext_draws (by simp [hra])
  · exact State.needContext_draws (by simp [hra, hrb])

/-- What a command with destination d leaves unchanged. -/
theorem ExecEffect.result_frame {i : Instr} {s t : State} {d : RegIdx} (h : ExecEffect i s t)
    (hd : destOf i = some d) :
    t = { s with x := t.x, status := t.status, draws := t.draws } ∧ (∀ j, j ≠ d → t.reg j = s.reg j) ∧
      ((∀ d a b, i ≠ .montmul d a b) → t.status.fatal = s.status.fatal) := by
  cases h with
  | error k e he => exact ⟨rfl, fun _ _ => rfl, fun _ => rfl⟩
  | context k r c hi hv hc => subst hi; cases hd
  | result k d' y hd' hv hy =>
    obtain rfl : d' = d := Option.some.inj (hd'.symm.trans hd)
    exact ⟨rfl, fun j hj => State.reg_writeX _ d' j y hj, fun _ => rfl⟩
  | fatal k d' a b hi => exact ⟨rfl, fun _ _ => rfl, fun hne => absurd hi (hne d' a b)⟩

end Sys2Proof.Machine

open Sys2Proof Sys2Proof.Machine

/-- Settles O15, by the effects of a CTXINIT and what a byte of the window depends on. -/
theorem ctxinitFrame : Obligations.CtxinitFrame := by
  unfold Obligations.CtxinitFrame
  intro s t r h
  obtain ⟨hframe, hfatal, hovr⟩ : t = { s with ctx := t.ctx, status := t.status, draws := t.draws } ∧
      t.status.fatal = s.status.fatal ∧ t.status.ovr = s.status.ovr := by
    cases exec_effect h with
    | error k e he => exact ⟨rfl, rfl, rfl⟩
    | context k r c hi hv hc => exact ⟨rfl, rfl, rfl⟩
    | result k d y hd hv hy => cases hd
    | fatal k d a b hi => cases hi
  refine ⟨hframe, hfatal, hovr, fun v hv => ?_, fun hdraws q hq hstatus hctxk hctx => ?_⟩
  · exact exec_draws_of_holds (d := r) hv hv (by simp) h
  · have hx : t.x = s.x := by rw [hframe]
    exact State.windowByte_congr hq (by rw [hframe]) hdraws (by rw [hframe]) (by rw [hframe]) hstatus
      (fun h => (h.elim hctxk hctx).elim) fun i _ _ => State.reg_congr i hx

/-- Settles O29, by the effects of a command with a destination and what a byte of the window depends on. -/
theorem resultCommandsFrame : Obligations.ResultCommandsFrame := by
  unfold Obligations.ResultCommandsFrame
  intro s t d a b i hi h
  have hd : destOf i = some d := by fin_cases hi <;> rfl
  obtain ⟨hframe, hregs, hfatal⟩ := (exec_effect h).result_frame hd
  refine ⟨hframe, hregs, (exec_effect h).completes.ovr, fun hne => hfatal ?_, fun va vb ha hb => ?_,
    fun hdraws q hq hstatus hx => ?_⟩
  · rintro d' a' b' rfl
    exact hne (by simpa using hi)
  · exact exec_draws_of_holds ha hb (List.mem_cons_of_mem _ hi) h
  · exact State.windowByte_congr hq (by rw [hframe]) hdraws (by rw [hframe]) (by rw [hframe]) hstatus
      (fun _ => by rw [hframe]) fun k hlo hhi => hregs k fun hk => hx ⟨hk ▸ hlo, hk ▸ hhi⟩
end

section
/-! PROOFS of the register reads (spec 10_state.md R20, R22), of the control and identification registers as the host
reads and writes them (R27 to R40) and of the reset event (R46; 70_reset_and_hazards.md R157). -/

namespace Sys2Proof.Machine

theorem wordOf_eq_div (v j : Nat) : wordOf v j = BitVec.ofNat 32 (v / 2 ^ (32 * j)) := by
  rw [wordOf, Nat.shiftRight_eq_div_pow]

/-- Word j of a value lies under its own mask. -/
theorem wordOf_and_wordMask (v j : Nat) : wordOf (v &&& wordMask j) j = wordOf v j := by
  apply BitVec.eq_of_getLsbD_eq
  intro k hk
  rw [wordOf_getLsbD _ _ hk, wordOf_getLsbD _ _ hk, Nat.testBit_and, testBit_wordMask]
  simp [hk]

theorem wordMask_ne_zero (j : Nat) : wordMask j ≠ 0 := by
  intro h
  have hbit := testBit_wordMask j (32 * j)
  simp [h] at hbit

/-- R22: a word of a register unwritten since reset reads as that word of the next free value. -/
theorem State.readXWord_of_unwritten {s : State} {i : RegIdx} {j : Nat} (h : (s.reg i).known = 0) (hj : j < s.cfg.L) :
    s.readXWord i j = (wordOf (Config.freeValue s.draws).toNat j, { s with draws := s.draws + 1 }) := by
  have hm : (s.reg i).missing (wordMask j) = wordMask j := by simp [XReg.missing, h]
  simp [State.readXWord, hj, State.readBits, hm, wordMask_ne_zero, XReg.sample, h, wordOf_and_wordMask]

/-- R29: CTRL as read: IE in bit 0, and 0 above. -/
theorem State.ctrlWord_getLsbD (s : State) (k : Nat) : s.ctrlWord.getLsbD k = (decide (k = 0) && s.ie) := by
  rw [State.ctrlWord, BitVec.getLsbD_ofNat]
  cases k with
  | zero => cases s.ie <;> rfl
  | succ k => cases s.ie <;> simp [Nat.testBit_succ]

theorem ErrCode.code_lt (e : ErrCode) : e.code < 16 := by cases e <;> decide

theorem getLsbD_eq_of_div_mod {w : Word} {k : Nat} {b : Bool} (h : w.toNat / 2 ^ k % 2 = b.toNat) :
    w.getLsbD k = b := by
  rw [BitVec.getLsbD, Nat.testBit_eq_decide_div_mod_eq, h]
  cases b <;> rfl

theorem extractLsb'_eq_of_div_mod {w : Word} {lo n a : Nat} (h : w.toNat / 2 ^ lo % 2 ^ n = a % 2 ^ n) :
    w.extractLsb' lo n = BitVec.ofNat n a := by
  apply BitVec.eq_of_toNat_eq
  rw [BitVec.extractLsb'_toNat, BitVec.toNat_ofNat, Nat.shiftRight_eq_div_pow, h]

/-- R28: PARAM as read, for a legal width. -/
theorem paramWord_fields {c : Config} (h : c.wf = true) :
    (paramWord c).extractLsb' 0 16 = BitVec.ofNat 16 c.W ∧ (paramWord c).extractLsb' 16 8 = 16#8 ∧
      (paramWord c).extractLsb' 24 8 = 0x01#8 := by
  obtain ⟨-, -, hW, -⟩ := (Config.wf_iff c).1 h
  have hword : (paramWord c).toNat = c.W + 16 * 2 ^ 16 + 2 ^ 24 := by
    simp [paramWord, nreg, versionValue]; omega
  exact ⟨extractLsb'_eq_of_div_mod (by omega), extractLsb'_eq_of_div_mod (by omega),
    extractLsb'_eq_of_div_mod (by omega)⟩

/-- R30, R33: STATUS as read: its flags in bits 4 to 0, ERR in bits 11 to 8, and 0 elsewhere. -/
theorem State.statusWord_layout (s : State) :
    s.statusWord.getLsbD 0 = s.status.busy ∧ s.statusWord.getLsbD 1 = s.status.done ∧
      s.statusWord.getLsbD 2 = s.ctx.valid ∧ s.statusWord.getLsbD 3 = s.status.fatal ∧
      s.statusWord.getLsbD 4 = s.status.ovr ∧ s.statusWord.extractLsb' 5 3 = 0#3 ∧
      s.statusWord.extractLsb' 8 4 = BitVec.ofNat 4 s.status.err.code ∧ s.statusWord.extractLsb' 12 20 = 0#20 := by
  have hcode := s.status.err.code_lt
  have hbusy := s.status.busy.toNat_le
  have hdone := s.status.done.toNat_le
  have hvalid := s.ctx.valid.toNat_le
  have hfatal := s.status.fatal.toNat_le
  have hovr := s.status.ovr.toNat_le
  have hword : s.statusWord.toNat = s.status.busy.toNat + s.status.done.toNat * 2 + s.ctx.valid.toNat * 4 +
      s.status.fatal.toNat * 8 + s.status.ovr.toNat * 16 + s.status.err.code * 256 := by
    rw [State.statusWord, BitVec.toNat_ofNat]; omega
  exact ⟨getLsbD_eq_of_div_mod (by omega), getLsbD_eq_of_div_mod (by omega), getLsbD_eq_of_div_mod (by omega),
    getLsbD_eq_of_div_mod (by omega), getLsbD_eq_of_div_mod (by omega), extractLsb'_eq_of_div_mod (by omega),
    extractLsb'_eq_of_div_mod (by omega), extractLsb'_eq_of_div_mod (by omega)⟩

/-- R40: CTXK as read: K fits 16 bits under the invariant. -/
theorem State.Inv.ctxkWord_toNat {s : State} (h : s.Inv) : s.ctxkWord.toNat = s.ctx.k := by
  obtain ⟨hw, -, hsound, hempty, -⟩ := h
  obtain ⟨-, -, hW, -⟩ := (Config.wf_iff s.cfg).1 hw
  have hk : s.ctx.k ≤ 16384 := by
    cases hv : s.ctx.valid with
    | true => exact Nat.le_trans (hsound hv).k_le hW
    | false => simp [hempty hv, Context.empty]
  rw [State.ctxkWord, low, BitVec.toNat_ofNat]
  omega

end Sys2Proof.Machine

open Sys2Proof Sys2Proof.Machine

/-- Settles O30, by what a read of a written and of an unwritten register gives. -/
theorem registerReads : Obligations.RegisterReads := by
  unfold Obligations.RegisterReads
  refine ⟨State.readX_snd, State.readX_lt, fun s i v h => State.readX_of_holds h, fun s i hw hunwritten => ?_⟩
  obtain ⟨-, hW, -, -⟩ := (Config.wf_iff _).1 hw
  have hpos : 0 < s.cfg.W := by omega
  have hread := State.readX_of_unwritten hpos hunwritten
  refine ⟨hread, ?_, fun j hj => ?_⟩
  · rw [hread]
    exact State.readX_of_unwritten (s := { s with draws := s.draws + 1 }) hpos hunwritten
  · rw [State.readXWord_of_unwritten hunwritten hj, wordOf_eq_div]

/-- Settles O33: the read and the write of each offset as a step, and the fields of PARAM. -/
theorem identificationRegisters : Obligations.IdentificationRegisters := by
  unfold Obligations.IdentificationRegisters
  intro s rest hw
  refine ⟨fun hs => step_read (off := 0) hw (by decide) rfl hs, fun hs => ?_, fun off v hoff hs => ?_⟩
  · exact ⟨paramWord s.cfg, step_read hw (by decide) rfl hs, paramWord_fields hw⟩
  · obtain rfl | rfl := hoff <;> exact step_write hw (by decide) rfl hs

/-- Settles O34: the write and the read as steps, and the bits of CTRL. -/
theorem controlRegister : Obligations.ControlRegister := by
  unfold Obligations.ControlRegister
  intro s rest hw
  refine ⟨fun v hs => step_write hw (by decide) rfl hs, fun hs => ?_⟩
  refine ⟨s.ctrlWord, step_read hw (by decide) rfl hs, s.ctrlWord_getLsbD 0, fun k hk => ?_⟩
  rw [State.ctrlWord_getLsbD]
  simp; omega

/-- Settles O35: the read and the write as steps, and the bits of STATUS. -/
theorem statusRegisterLayout : Obligations.StatusRegisterLayout := by
  unfold Obligations.StatusRegisterLayout
  refine ⟨⟨rfl, rfl, rfl, rfl, rfl⟩, fun s rest hw => ⟨fun hs => ?_, fun v hs => step_write hw (by decide) rfl hs⟩⟩
  exact ⟨s.statusWord, step_read hw (by decide) rfl hs, s.statusWord_layout⟩

/-- Settles O39: the write as a step, for each value of bit 0 and of FATAL. -/
theorem ackWrite : Obligations.AckWrite := by
  unfold Obligations.AckWrite
  intro s rest hw
  refine ⟨fun v hs => ?_, fun hs => step_read hw (by decide) rfl hs⟩
  have hstep : step s = .next { ({ s with schedule := rest } : State).writeAck v with resp := .writeDone } :=
    step_write hw (by decide) rfl hs
  refine ⟨fun hv hf => ?_, fun hv hf => ?_, fun hv => ?_⟩
  · rw [hstep, State.writeAck_of_bit _ hv]
    simp [Status.acked, hf]
  · rw [hstep, State.writeAck_of_bit _ hv]
    simp [Status.acked, hf]
  · rw [hstep, State.writeAck, hv]
    rfl

/-- Settles O40: the reads and writes as steps; K fits CTXK by the invariant. -/
theorem lastcmdAndCtxkReads : Obligations.LastcmdAndCtxkReads := by
  unfold Obligations.LastcmdAndCtxkReads
  intro s rest hinv
  obtain ⟨hw, -⟩ := id hinv
  refine ⟨fun hs => step_read hw (by decide) rfl hs, fun hs => ?_, fun hs => step_read hw (by decide) rfl hs,
    fun off v hoff hs => ?_⟩
  · exact ⟨s.ctxkWord, step_read hw (by decide) rfl hs, hinv.ctxkWord_toNat⟩
  · obtain rfl | rfl := hoff <;> exact step_write hw (by decide) rfl hs

/-- Settles O51: the reset event as a step; with BUSY = 0 the engine's turn never looks at CMDLATCH. -/
theorem resetEventValues : Obligations.ResetEventValues := by
  unfold Obligations.ResetEventValues
  intro s rest hs
  refine ⟨_, step_reset hs, rfl, rfl, fun i => ?_, rfl, rfl, rfl, rfl, rfl, rfl, rfl, rfl, rfl,
    fun w => engineTurn_idle rfl, rfl, rfl⟩
  exact congrArg XReg.known (State.reg_resetWith i s.cfg)

/-- Settles O52, by the fields of the state after reset. -/
theorem stateAfterReset : Obligations.StateAfterReset := by
  unfold Obligations.StateAfterReset
  refine ⟨fun c => ⟨fun i => ?_, rfl, rfl, rfl, rfl, fun v => rfl⟩, rfl⟩
  rw [State.reg_resetWith]; rfl
end

section
/-! PROOFS of the register window as the host sees it (spec 20_memory.md R48 to R62): which accesses are answered, the
words of the context windows and of the X windows, the reserved space, and the bytes of a register's image. -/

namespace Sys2Proof.Machine

/-! ### Accesses and their answers -/

/-- R48: an access outside the window is not decoded, admitted or not. -/
theorem hostTurn_of_not_inWindow {a : Access} {s : State} (h : a.inWindow s.cfg = false) :
    hostTurn a s = .fault (.notDecoded a.addr) := by simp [hostTurn, h]

/-- R57: an access in the window that is not admitted is a bus error. -/
theorem hostTurn_of_not_admitted {a : Access} {s : State} (hw : a.inWindow s.cfg = true) (h : a.admitted = false) :
    hostTurn a s = .fault (.busError a.addr) := by simp [hostTurn, hw, h]

/-- A read neither looks at nor changes the turns to come and the answer before it. -/
theorem State.readLoc_of_turn (s : State) (turns : List Turn) (a : BusResp) (l : Loc) :
    ({ s with schedule := turns, resp := a } : State).readLoc l =
      ((s.readLoc l).1, { s with schedule := turns, resp := a, draws := (s.readLoc l).2.draws }) := by
  have hreg : ∀ i, ({ s with schedule := turns, resp := a } : State).reg i = s.reg i := fun _ => rfl
  cases l with
  | x i j =>
    simp only [State.readLoc, State.readXWord, State.readBits, hreg]
    split
    · split <;> rfl
    · rfl
  | _ => rfl

/-- R60: a read in the window of a word at a multiple of 4, as a step after any answer; the base address may be any. -/
theorem step_read_addr {s : State} {addr : Nat} {rest : List Turn} (a : BusResp)
    (hw : (Access.read addr 4).inWindow s.cfg = true) (h4 : addr % 4 = 0) :
    step { s with schedule := .access (.read addr 4) :: rest, resp := a } = .next { s with
      schedule := rest
      draws := (s.readLoc (locate (addr - s.cfg.base))).2.draws
      resp := .readData (s.readLoc (locate (addr - s.cfg.base))).1 } := by
  rw [step_access rfl, hostTurn_eq (s := { s with schedule := rest, resp := a }) hw
    ((Access.admitted_iff _).2 ⟨rfl, h4⟩), State.serve, s.readLoc_of_turn rest a]

/-- A read that draws nothing changes the turn and the answer only. -/
theorem step_read_of_readLoc {s : State} {off : Nat} {w : Word} {rest : List Turn} (hw : s.cfg.wf = true)
    (h : off < 0x10000) (h4 : off % 4 = 0) (hs : s.schedule = .access (.read (s.cfg.base + off) 4) :: rest)
    (hread : ({ s with schedule := rest } : State).readLoc (locate off) = (w, { s with schedule := rest })) :
    step s = .next { s with schedule := rest, resp := .readData w } := by
  rw [step_read hw h h4 hs, hread]

/-- A write that its location ignores changes the turn and the answer only. -/
theorem step_write_of_ignored {s : State} {off : Nat} {v : Word} {rest : List Turn} (hw : s.cfg.wf = true)
    (h : off < 0x10000) (h4 : off % 4 = 0) (hs : s.schedule = .access (.write (s.cfg.base + off) 4 v) :: rest)
    (hwrite : ∀ t : State, t.writeLoc v (locate off) = t) :
    step s = .next { s with schedule := rest, resp := .writeDone } := by
  rw [step_write hw h h4 hs, hwrite]

/-! ### Words of a window -/

theorem windowWord_below {c : Config} {j : Nat} (v : Nat) (h : j < c.L) :
    windowWord c v j = BitVec.ofNat 32 (v / 2 ^ (32 * j)) := by
  rw [windowWord, if_pos h, wordOf_eq_div]

theorem windowWord_beyond {c : Config} {j : Nat} (v : Nat) (h : c.L ≤ j) : windowWord c v j = 0 := by
  rw [windowWord, if_neg (by omega)]

theorem State.readXWord_beyond {s : State} {j : Nat} (i : RegIdx) (h : s.cfg.L ≤ j) : s.readXWord i j = (0, s) := by
  rw [State.readXWord, if_neg (by omega)]

/-- R59: a write of an X window word while a command is in flight. -/
theorem State.writeXWord_busy {s : State} (i : RegIdx) (j : Nat) (v : Word) (hb : s.status.busy = true) :
    s.writeXWord i j v = { s with status := { s.status with ovr := true } } := by
  rw [State.writeXWord, if_pos hb]

/-- R53: a write from L on while no command is in flight. -/
theorem State.writeXWord_beyond {s : State} {j : Nat} (i : RegIdx) (v : Word) (hb : s.status.busy = false)
    (h : s.cfg.L ≤ j) : s.writeXWord i j v = s := by
  rw [State.writeXWord, if_neg (by simp [hb]), if_neg (by omega)]

/-- The host's write of an X window word as its bus access. -/
theorem hostWR_x (c : Config) (i : RegIdx) (j : Nat) (v : Word) :
    hostWR c (0x8000 + 0x800 * i.val + 4 * j) v =
      .access (.write (c.base + 0x8000 + 0x800 * i.val + 4 * j) 4 v) := by
  rw [hostWR, ← Nat.add_assoc, ← Nat.add_assoc]

/-- R22: a word every bit of which was written reads as that word of the value, and nothing is drawn. -/
theorem State.readXWord_of_known {s : State} {i : RegIdx} {j : Nat} (hj : j < s.cfg.L)
    (h : (s.reg i).missing (wordMask j) = 0) : s.readXWord i j = (wordOf (s.reg i).value j, s) := by
  rw [State.readXWord, if_pos hj, State.readBits, if_pos h]
  exact congrArg (·, s) (wordOf_and_wordMask _ j)

theorem XReg.missing_wordMask_replaceWord (W : Nat) (r : XReg) (j : Nat) (v : Word) :
    (r.replaceWord W j v).missing (wordMask j) = 0 := by
  have hknown : wordMask j &&& (r.known ||| wordMask j) = wordMask j := by
    apply Nat.eq_of_testBit_eq
    simp +contextual
  rw [XReg.missing, XReg.replaceWord, hknown, Nat.xor_self]

theorem XReg.Wf.wordOf_replaceWord {W : Nat} {r : XReg} (h : r.Wf W) (j : Nat) (v : Word) :
    wordOf (r.replaceWord W j v).value j = v := by
  apply BitVec.eq_of_getLsbD_eq
  intro k hk
  obtain ⟨hvalue, -⟩ := XReg.replaceWord_testBit (j := j) h v (32 * j + k)
  rw [wordOf_getLsbD _ _ hk, hvalue, if_pos (by omega), Nat.add_sub_cancel_left]

/-! ### The context windows -/

/-- R51: the offsets of the three context windows, each with the register it shows. -/
def Context.windows (c : Context) : List (Nat × Nat) := [(0x0800, c.n), (0x1000, c.rinv), (0x1800, c.nprime)]

theorem Context.offset_of_mem_windows {c : Context} {p : Nat × Nat} (h : p ∈ c.windows) :
    p.1 = 0x0800 ∨ p.1 = 0x1000 ∨ p.1 = 0x1800 := by
  simp only [Context.windows, List.mem_cons, List.not_mem_nil, or_false] at h
  rcases h with rfl | rfl | rfl <;> simp

/-- R53: a read of a context window gives that word of its register and draws nothing. -/
theorem State.readLoc_ctxWindow (s : State) {j : Nat} (hj : j < 512) {p : Nat × Nat} (hp : p ∈ s.ctx.windows) :
    s.readLoc (locate (p.1 + 4 * j)) = (windowWord s.cfg p.2 j, s) := by
  simp only [Context.windows, List.mem_cons, List.not_mem_nil, or_false] at hp
  rcases hp with rfl | rfl | rfl
  · rw [locate_ctxN hj]; rfl
  · rw [locate_ctxRinv hj]; rfl
  · rw [locate_ctxNprime hj]; rfl

/-- R53: the context windows ignore writes. -/
theorem State.writeLoc_ctxWindow (s : State) (v : Word) {j : Nat} (hj : j < 512) {c : Context} {p : Nat × Nat}
    (hp : p ∈ c.windows) : s.writeLoc v (locate (p.1 + 4 * j)) = s := by
  rcases Context.offset_of_mem_windows hp with h | h | h <;> rw [h]
  · rw [locate_ctxN hj]; rfl
  · rw [locate_ctxRinv hj]; rfl
  · rw [locate_ctxNprime hj]; rfl

/-- Every aligned offset from 0x0800 to 0x1FFF is a word of a context window. -/
theorem Context.exists_window (c : Context) {off : Nat} (hlo : 0x0800 ≤ off) (hhi : off < 0x2000) (h4 : off % 4 = 0) :
    ∃ p ∈ c.windows, off = p.1 + 4 * (off % 0x800 / 4) := by
  have hthird : off / 0x800 = 1 ∨ off / 0x800 = 2 ∨ off / 0x800 = 3 := by omega
  rcases hthird with h | h | h
  · exact ⟨(0x0800, c.n), by simp [Context.windows], by simp only; omega⟩
  · exact ⟨(0x1000, c.rinv), by simp [Context.windows], by simp only; omega⟩
  · exact ⟨(0x1800, c.nprime), by simp [Context.windows], by simp only; omega⟩

/-- Every aligned offset from 0x8000 on is a word of an X window. -/
theorem exists_xWindow {off : Nat} (hlo : 0x8000 ≤ off) (hhi : off < 0x10000) (h4 : off % 4 = 0) :
    ∃ i : RegIdx, off = 0x8000 + 0x800 * i.val + 4 * (off % 0x800 / 4) :=
  ⟨⟨off / 0x800 - 16, by omega⟩, by simp only; omega⟩

/-! ### The reserved space -/

theorem locate_reserved {off : Nat} (h : (0x0020 ≤ off ∧ off < 0x0800) ∨ (0x2000 ≤ off ∧ off < 0x8000)) :
    locate off = .reserved := by
  unfold locate
  iterate 8 rw [if_neg (by omega)]
  rcases h with h | h
  · rw [if_pos (by omega)]
  · iterate 4 rw [if_neg (by omega)]
    rw [if_pos (by omega)]

/-- R53, R58: a window word from L on reads 0, in a context window and in an X window. -/
theorem State.readLoc_beyond (s : State) {off : Nat} (hwin : (0x0800 ≤ off ∧ off < 0x2000) ∨ 0x8000 ≤ off)
    (hhi : off < 0x10000) (h4 : off % 4 = 0) (hL : s.cfg.L ≤ off % 0x800 / 4) :
    s.readLoc (locate off) = (0, s) := by
  have hj : off % 0x800 / 4 < 512 := by omega
  obtain ⟨hlo, hctx⟩ | hlo := hwin
  · obtain ⟨p, hp, hoff⟩ := s.ctx.exists_window hlo hctx h4
    rw [hoff, s.readLoc_ctxWindow hj hp, windowWord_beyond _ hL]
  · obtain ⟨i, hoff⟩ := exists_xWindow hlo hhi h4
    rw [hoff, locate_x i hj]
    exact State.readXWord_beyond i hL

/-! ### Reads of written registers -/

/-- R60: with every operand register written a read draws nothing. -/
theorem State.readLoc_snd_of_holds {s : State} (h : ∀ i, ∃ v, s.Holds i v) (l : Loc) : (s.readLoc l).2 = s := by
  cases l with
  | x i j =>
    obtain ⟨v, hv⟩ := h i
    exact congrArg Prod.snd (State.readXWord_of_holds hv j)
  | _ => rfl

/-! ### Bytes of a register's image -/

/-- R54: byte q of a value is byte q mod 4 of its word q / 4. -/
theorem byte_of_wordOf (v q : Nat) :
    BitVec.ofNat 8 ((wordOf v (q / 4)).toNat >>> (8 * (q % 4))) = BitVec.ofNat 8 (v / 2 ^ (8 * q)) := by
  apply BitVec.eq_of_getLsbD_eq
  intro k hk
  have hbit : (wordOf v (q / 4)).getLsbD (8 * (q % 4) + k) = v.testBit (8 * q + k) := by
    rw [wordOf_getLsbD _ _ (by omega), show 32 * (q / 4) + (8 * (q % 4) + k) = 8 * q + k by omega]
  rw [BitVec.getLsbD_ofNat, BitVec.getLsbD_ofNat, ← Nat.shiftRight_eq_div_pow, Nat.testBit_shiftRight,
    Nat.testBit_shiftRight, ← hbit]
  rfl

/-- R54: where a window shows v word by word, its byte q is byte q of v. -/
theorem State.windowByte_of_word {s : State} {start q v : Nat} (hstart : start % 4 = 0) (hq : q / 4 < s.cfg.L)
    (hword : (s.readLoc (locate (start + 4 * (q / 4)))).1 = windowWord s.cfg v (q / 4)) :
    s.windowByte (start + q) = BitVec.ofNat 8 (v / 2 ^ (8 * q)) := by
  have hlane : (start + q) % 4 = q % 4 := by omega
  have hoff : start + q - (start + q) % 4 = start + 4 * (q / 4) := by omega
  rw [State.windowByte, hoff, hlane, hword, windowWord, if_pos hq, byte_of_wordOf]

end Sys2Proof.Machine

open Sys2Proof Sys2Proof.Machine

/-- Settles O43: the write as a step, and the bits of the register with one word replaced. -/
theorem xWindowWrite : Obligations.XWindowWrite := by
  unfold Obligations.XWindowWrite
  intro s i j v rest hinv hj hs hb
  obtain ⟨hw, hregs, -⟩ := hinv
  refine ⟨fun hL => ?_, fun hL => ?_⟩
  · rw [step_writeX hw hj hs, State.writeXWord_beyond (s := { s with schedule := rest }) i v hb hL]
  · obtain ⟨t, hstep, hreg, hframe, ht⟩ := step_hostWR_x hw hb hL (by rw [hs, hostWR_x])
    have hbits := XReg.replaceWord_testBit (j := j) (hregs i) v
    exact ⟨t, hstep, ht, hframe, fun b => by rw [hreg, (hbits b).1], fun b => by rw [hreg, (hbits b).2]⟩

/-- Settles O44: the write leaves the word specified, so the read draws nothing and gives its bits. -/
theorem xWordReadsBackAsWritten : Obligations.XWordReadsBackAsWritten := by
  unfold Obligations.XWordReadsBackAsWritten
  intro s i j v rest hinv hL hb hs
  obtain ⟨hw, hregs, -⟩ := hinv
  obtain ⟨u, hwrite, hreg, -, hu⟩ := step_hostWR_x hw hb hL (by rw [hs, hostWR_x])
  have hcfg : u.cfg = s.cfg := by rw [hu]
  have hsched : u.schedule = .access (.read (u.cfg.base + 0x8000 + 0x800 * i.val + 4 * j) 4) :: rest := by rw [hu]
  have hread := step_readX (hcfg ▸ hw) (Nat.lt_of_lt_of_le hL (Config.L_le_of_wf hw)) hsched
  have hknown : (u.reg i).missing (wordMask j) = 0 := by rw [hreg, XReg.missing_wordMask_replaceWord]
  refine ⟨_, (core_run_succ 1 hwrite).trans (core_run_succ 0 hread), congrArg BusResp.readData ?_⟩
  rw [State.readXWord_of_known (s := { u with schedule := rest }) (by rw [hcfg]; exact hL) hknown]
  exact hreg ▸ (hregs i).wordOf_replaceWord j v

/-- Settles O47: the location of each offset, what a read of it gives and that a write of it is ignored. -/
theorem reservedSpace : Obligations.ReservedSpace := by
  unfold Obligations.ReservedSpace
  intro s off rest hw hlt h4 isReserved inCtx beyond
  refine ⟨fun hoff hs => step_read_of_readLoc hw hlt h4 hs ?_,
    fun hoff v hs => step_write_of_ignored hw hlt h4 hs fun t => ?_, fun v w h => ?_, fun k hk => ?_⟩
  · obtain hres | rfl | rfl | ⟨hwin, hL⟩ := hoff
    · rw [locate_reserved hres]; rfl
    · rfl
    · rfl
    · exact State.readLoc_beyond _ hwin hlt h4 hL
  · obtain hres | hro | ⟨hlo, hhi⟩ := hoff
    · rw [locate_reserved hres]; rfl
    · simp only [List.mem_cons, List.not_mem_nil, or_false] at hro
      rcases hro with rfl | rfl | rfl | rfl | rfl <;> rfl
    · obtain ⟨p, hp, hoff⟩ := t.ctx.exists_window hlo hhi h4
      rw [hoff]
      exact t.writeLoc_ctxWindow v (by omega) hp
  · rw [State.writeCtrl, State.writeCtrl, h]
  · rw [State.ctrlWord_getLsbD]
    simp; omega

/-- Settles O48: a read changes the count of draws at most, by nothing if all is written, and it does not look
at the answer before it. -/
theorem readsHaveNoSideEffect : Obligations.ReadsHaveNoSideEffect := by
  unfold Obligations.ReadsHaveNoSideEffect
  intro s addr rest hwin h4 hs
  have hstep := step_read_addr (rest := .access (.read addr 4) :: rest) s.resp hwin h4
  rw [← hs] at hstep
  refine ⟨_, _, hstep, rfl, fun hholds => ?_⟩
  have hdraws := congrArg State.draws (State.readLoc_snd_of_holds hholds (locate (addr - s.cfg.base)))
  refine ⟨hdraws, ?_⟩
  rw [hdraws, step_read_addr _ hwin h4, hdraws]

/-- Settles O49: each of the four windows shows its register word by word. -/
theorem littleEndianByteImage : Obligations.LittleEndianByteImage := by
  unfold Obligations.LittleEndianByteImage
  intro s i v q hw hv hq
  have hL : q / 4 < s.cfg.L := by have := Config.mul_L_of_wf hw; omega
  have hj : q / 4 < 512 := Nat.lt_of_lt_of_le hL (Config.L_le_of_wf hw)
  have hctx : ∀ p ∈ s.ctx.windows, s.windowByte (p.1 + q) = BitVec.ofNat 8 (p.2 / 2 ^ (8 * q)) := fun p hp =>
    State.windowByte_of_word (by have := Context.offset_of_mem_windows hp; omega) hL
      (congrArg Prod.fst (s.readLoc_ctxWindow hj hp))
  refine ⟨State.windowByte_of_word (by omega) hL ?_, hctx (0x0800, _) ?_, hctx (0x1000, _) ?_, hctx (0x1800, _) ?_⟩
  · rw [locate_x i hj]
    exact congrArg Prod.fst (State.readXWord_of_holds hv _)
  all_goals simp [Context.windows]

/-- Settles O31, by whether the access is admitted. -/
theorem unadmittedAccessIsABusError : Obligations.UnadmittedAccessIsABusError := by
  unfold Obligations.UnadmittedAccessIsABusError
  intro s a rest hs hlo hhi
  have hwin : a.inWindow s.cfg = true := (Access.inWindow_iff _ _).2 ⟨hlo, hhi⟩
  rw [← Access.admitted_iff, Bool.not_eq_true, step_access hs]
  exact ⟨hostTurn_of_not_admitted hwin, fun h => ⟨_, hostTurn_eq hwin h⟩⟩

/-- Settles O32: such an access is not in the window. -/
theorem accessOutsideTheWindowIsNotDecoded : Obligations.AccessOutsideTheWindowIsNotDecoded := by
  unfold Obligations.AccessOutsideTheWindowIsNotDecoded
  intro s a rest hs haddr
  have hwin : a.inWindow s.cfg = false := by
    rw [← Bool.not_eq_true, Access.inWindow_iff]; omega
  rw [step_access hs]
  exact hostTurn_of_not_inWindow hwin

/-- Settles O41: the read as a step, and the word of a written register below L and from L on. -/
theorem xWindowRead : Obligations.XWindowRead := by
  unfold Obligations.XWindowRead
  intro s i j v rest hw hj hv hs
  rw [step_readX hw hj hs, State.readXWord_of_holds (s := { s with schedule := rest }) hv]
  exact ⟨fun hL => by rw [windowWord_below v hL], fun hL => by rw [windowWord_beyond v hL]⟩

/-- Settles O42: what a read of a context window gives, below L and from L on, and that it ignores writes. -/
theorem contextWindows : Obligations.ContextWindows := by
  unfold Obligations.ContextWindows
  intro s j rest hw hj p hp
  have hoff := Context.offset_of_mem_windows (c := s.ctx) hp
  rw [Nat.add_assoc]
  refine ⟨fun hs => ?_, fun v hs => ?_⟩
  · have hstep := step_read_of_readLoc hw (by omega) (by omega) hs
      (State.readLoc_ctxWindow { s with schedule := rest } hj hp)
    rw [hstep]
    exact ⟨fun hL => by rw [windowWord_below _ hL], fun hL => by rw [windowWord_beyond _ hL]⟩
  · exact step_write_of_ignored hw (by omega) (by omega) hs fun t => t.writeLoc_ctxWindow (c := s.ctx) v hj hp

/-- Settles O46: the write as a step, dropped because BUSY = 1. -/
theorem xWriteDroppedWhileBusy : Obligations.XWriteDroppedWhileBusy := by
  unfold Obligations.XWriteDroppedWhileBusy
  intro s i j v rest hw hj hs hb
  rw [step_writeX hw hj hs, State.writeXWord_busy (s := { s with schedule := rest }) i j v hb]
end

section
/-! PROOFS of the encoding (spec 30_encoding.md R70 to R79, R84): a word is its five fields, a command's word is the
word with the fields of the command's row, and the decoder answers a command on exactly that word. -/

namespace Sys2Proof

/-! ### The fields of a word -/

theorem bits_eq_div_mod (v : Word) (hi lo : Nat) : bits v hi lo = v.toNat / 2 ^ lo % 2 ^ (hi - lo + 1) := by
  rw [bits, Nat.shiftRight_eq_div_pow]

theorem bits_and (v w : Word) (hi lo : Nat) : bits (v &&& w) hi lo = bits v hi lo &&& bits w hi lo := by
  simp only [bits, BitVec.toNat_and, Nat.shiftRight_and_distrib, Nat.and_mod_two_pow]

theorem bits_lt (v : Word) (hi lo : Nat) : bits v hi lo < 2 ^ (hi - lo + 1) := Nat.mod_lt _ (Nat.two_pow_pos _)

/-- A mask with the field's bits set keeps the field. -/
theorem bits_and_of_ones {m : Word} {hi lo : Nat} (h : bits m hi lo = 2 ^ (hi - lo + 1) - 1) (v : Word) :
    bits (v &&& m) hi lo = bits v hi lo := by
  rw [bits_and, h, Nat.and_two_pow_sub_one_of_lt_two_pow (bits_lt v hi lo)]

/-- A mask with the field's bits clear clears the field. -/
theorem bits_and_of_zero {m : Word} {hi lo : Nat} (h : bits m hi lo = 0) (v : Word) : bits (v &&& m) hi lo = 0 := by
  rw [bits_and, h, Nat.and_zero]

/-- The five fields of v are 0 for RSV and the four given values, in the order of R73's columns. -/
def HasFields (v : Word) (op rd rs1 rs2 : Nat) : Prop :=
  rsvField v = 0 ∧ opField v = op ∧ rdField v = rd ∧ rs1Field v = rs1 ∧ rs2Field v = rs2

/-- R71: the fields cover the word. -/
theorem hasFields_iff_toNat {v : Word} {op rd rs1 rs2 : Nat} (hop : op < 16) (hrd : rd < 16) (hrs1 : rs1 < 16)
    (hrs2 : rs2 < 16) :
    HasFields v op rd rs1 rs2 ↔ v.toNat = rs2 * 4096 + (rs1 * 256 + rd * 16 + op) := by
  have hv := v.isLt
  simp only [HasFields, rsvField, opField, rdField, rs1Field, rs2Field, bits_eq_div_mod]
  omega

@[simp] theorem regOfField_val (r : RegIdx) : regOfField r.val = r := Fin.ofNat_val_eq_self r

/-- R72: every value of a register field names a register. -/
theorem exists_regIdx_eq_bits (v : Word) (lo : Nat) : ∃ r : RegIdx, bits v (lo + 3) lo = r.val :=
  ⟨⟨bits v (lo + 3) lo, (bits_lt v (lo + 3) lo).trans_eq (by simp)⟩, rfl⟩

/-! ### The row of a command -/

/-- R73: the fields of v are those the row of command i lists. -/
def Instr.RowOf (v : Word) : Instr → Prop
  | .ctxinit s => HasFields v 1 0 s 0
  | .tomont d s => HasFields v 2 d s 0
  | .frommont d s => HasFields v 3 d s 0
  | .montmul d s t => HasFields v 4 d s t

/-- R79: the word of a command is the one word with the fields of its row. -/
theorem encode_eq_iff_rowOf {v : Word} {i : Instr} : encode i = v ↔ i.RowOf v := by
  rw [← BitVec.toNat_inj, eq_comm]
  cases i with
  | ctxinit s => rw [encode_ctxinit_toNat, Instr.RowOf, hasFields_iff_toNat] <;> omega
  | tomont d s => rw [encode_tomont_toNat, Instr.RowOf, hasFields_iff_toNat] <;> omega
  | frommont d s => rw [encode_frommont_toNat, Instr.RowOf, hasFields_iff_toNat] <;> omega
  | montmul d s t => rw [encode_montmul_toNat, Instr.RowOf, hasFields_iff_toNat] <;> omega

theorem legal_iff {v : Word} :
    legal v = true ↔ rsvField v = 0 ∧
      ((opField v = 1 ∧ rdField v = 0 ∧ rs2Field v = 0) ∨ (opField v = 2 ∧ rs2Field v = 0) ∨
       (opField v = 3 ∧ rs2Field v = 0) ∨ opField v = 4) := by
  simp [legal, or_assoc, and_assoc]

/-! ### The decoder -/

theorem exists_decode_illegal_iff {v : Word} : (∃ why, decode v = .illegal why) ↔ legal v = false := by
  unfold decode
  split
  next h => exact iff_of_true ⟨_, rfl⟩ h
  next h => exact iff_of_false (by split_ifs <;> simp) h

theorem decode_of_rowOf {v : Word} {i : Instr} (h : i.RowOf v) : decode v = .cmd i := by
  cases i
  all_goals
    obtain ⟨hrsv, hop, hrd, hrs1, hrs2⟩ := h
    simp [decode, legal, hrsv, hop, hrd, hrs1, hrs2]

/-- R75: a legal word has the row of some command. -/
theorem exists_rowOf_of_legal {v : Word} (h : legal v = true) : ∃ i : Instr, i.RowOf v := by
  obtain ⟨d, hrd⟩ := exists_regIdx_eq_bits v 4
  obtain ⟨s, hrs1⟩ := exists_regIdx_eq_bits v 8
  obtain ⟨t, hrs2⟩ := exists_regIdx_eq_bits v 12
  obtain ⟨hrsv, ⟨hop, hrd0, hrs20⟩ | ⟨hop, hrs20⟩ | ⟨hop, hrs20⟩ | hop⟩ := legal_iff.1 h
  · exact ⟨.ctxinit s, hrsv, hop, hrd0, hrs1, hrs20⟩
  · exact ⟨.tomont d s, hrsv, hop, hrd, hrs1, hrs20⟩
  · exact ⟨.frommont d s, hrsv, hop, hrd, hrs1, hrs20⟩
  · exact ⟨.montmul d s t, hrsv, hop, hrd, hrs1, hrs2⟩

theorem decode_eq_cmd_iff_rowOf {v : Word} {i : Instr} : decode v = .cmd i ↔ i.RowOf v := by
  refine ⟨fun h => ?_, decode_of_rowOf⟩
  have hl : legal v = true := by
    rw [← Bool.not_eq_false, ← exists_decode_illegal_iff]
    simp [h]
  obtain ⟨j, hj⟩ := exists_rowOf_of_legal hl
  have hij : i = j := by simpa [h] using decode_of_rowOf hj
  exact hij ▸ hj

/-! ### The match and mask rows -/

/-- A mask and a match word that holds an opcode alone: the masked word has that opcode and no other field. -/
theorem and_eq_opcode_iff {v m : Word} {op : Nat} (h : op < 16) :
    v &&& m = BitVec.ofNat 32 op ↔ HasFields (v &&& m) op 0 0 0 := by
  rw [hasFields_iff_toNat h (by omega) (by omega) (by omega), ← BitVec.toNat_inj, BitVec.toNat_ofNat]
  omega

/-- Two rows, each a match word and a mask, that keep OP and differ there match no word in common. -/
theorem not_both_match {p q : Word × Word} (h : opField p.2 = 15 ∧ opField q.2 = 15 ∧ opField p.1 ≠ opField q.1)
    (v : Word) : ¬ (v &&& p.2 = p.1 ∧ v &&& q.2 = q.1) := by
  obtain ⟨hp, hq, hne⟩ := h
  rintro ⟨hvp, hvq⟩
  apply hne
  calc opField p.1 = opField v := hvp ▸ bits_and_of_ones hp v
    _ = opField q.1 := hvq ▸ (bits_and_of_ones hq v).symm

/-- R71: a register shifted into one of the fields fits the word. -/
theorem RegIdx.shiftLeft_lt (r : RegIdx) {k : Nat} (hk : k ≤ 28) : r.val <<< k < 2 ^ 32 := by
  rw [Nat.shiftLeft_eq]
  calc r.val * 2 ^ k ≤ 15 * 2 ^ 28 := Nat.mul_le_mul (by omega) (Nat.pow_le_pow_right (by decide) hk)
    _ < 2 ^ 32 := by decide

end Sys2Proof

open Sys2Proof Sys2Proof.Machine

/-- Settles O1: the words of R79 fit 32 bits, and `decode` and `encode` both answer by the row of R73. -/
theorem decodeAndEncodeAgree : Obligations.DecodeAndEncodeAgree := by
  unfold Obligations.DecodeAndEncodeAgree
  have hlow (d s : RegIdx) : s.val <<< 8 ||| d.val <<< 4 < 2 ^ 32 :=
    Nat.or_lt_two_pow (s.shiftLeft_lt (by decide)) (d.shiftLeft_lt (by decide))
  refine ⟨fun s => ?_, fun d s => ?_, fun d s => ?_, fun d s t => ?_, fun i => ?_, fun v i h => ?_⟩
  · exact Nat.mod_eq_of_lt (Nat.or_lt_two_pow (s.shiftLeft_lt (by decide)) (by decide))
  · exact Nat.mod_eq_of_lt (Nat.or_lt_two_pow (hlow d s) (by decide))
  · exact Nat.mod_eq_of_lt (Nat.or_lt_two_pow (hlow d s) (by decide))
  · exact Nat.mod_eq_of_lt (Nat.or_lt_two_pow (Nat.or_lt_two_pow (Nat.or_lt_two_pow (t.shiftLeft_lt (by decide))
      (s.shiftLeft_lt (by decide))) (d.shiftLeft_lt (by decide))) (by decide))
  · exact decode_eq_cmd_iff_rowOf.2 (encode_eq_iff_rowOf.1 rfl)
  · exact encode_eq_iff_rowOf.2 (decode_eq_cmd_iff_rowOf.1 h)

/-- Settles O2: R75's legality is `legal`, and a legal word has the row of the command its OP names. -/
theorem decoderAcceptsExactlyTheLegalWords : Obligations.DecoderAcceptsExactlyTheLegalWords := by
  unfold Obligations.DecoderAcceptsExactlyTheLegalWords
  intro v f isLegal
  have hf : f = bits v := funext₂ fun hi lo => (bits_eq_div_mod v hi lo).symm
  have hlegal : isLegal ↔ legal v = true := by
    simp only [isLegal, hf]
    exact legal_iff.symm
  clear_value isLegal f
  subst hf
  by_cases hl : legal v = true
  · obtain ⟨i, hi⟩ := exists_rowOf_of_legal hl
    have hd := decode_of_rowOf hi
    -- The row fixes OP, so the premise of one clause holds, and the row's fields are its registers.
    cases i
    all_goals
      obtain ⟨-, hop, hrd, hrs1, hrs2⟩ := hi
      simp only [opField, rdField, rs1Field, rs2Field] at hop hrd hrs1 hrs2
      simp [hlegal, hl, hd, hop, hrd, hrs1, hrs2, Fin.val_inj]
  · simpa [hlegal, hl] using exists_decode_illegal_iff.2 (Bool.not_eq_true _ ▸ hl)

/-- Settles O3: a masked word is compared field by field, and no two rows have one opcode. -/
theorem matchAndMaskRowsAreTheDecoder : Obligations.MatchAndMaskRowsAreTheDecoder := by
  unfold Obligations.MatchAndMaskRowsAreTheDecoder
  refine ⟨fun v => ?_, fun v => ?_, fun v => ?_, fun v => ?_, ?_⟩
  case refine_5 => exact List.Pairwise.imp not_both_match (by decide)
  all_goals
    -- Each field of the mask is all ones or zero: the word has the row's fixed fields, and the others name registers.
    have hrd := exists_regIdx_eq_bits v 4
    have hrs1 := exists_regIdx_eq_bits v 8
    have hrs2 := exists_regIdx_eq_bits v 12
    rw [and_eq_opcode_iff (by decide)]
    simp (disch := decide) only [decode_eq_cmd_iff_rowOf, Instr.RowOf, HasFields, rsvField, opField, rdField, rs1Field,
      rs2Field, bits_and_of_ones, bits_and_of_zero]
    simp [hrd, hrs1, hrs2]

/-- Settles O4: each line assembled, each word's command by evaluation, and the five words not legal. -/
theorem workedEncodingsDecode : Obligations.WorkedEncodingsDecode := by
  unfold Obligations.WorkedEncodingsDecode
  refine ⟨?_, by decide, by decide, by decide, by decide, by decide, by decide, by decide, ?_⟩
  · simp only [List.forall_mem_cons]
    exact ⟨⟨.ctxinit 0, by decide +kernel, by decide⟩, ⟨.ctxinit 15, by decide +kernel, by decide⟩,
      ⟨.tomont 2 1, by decide +kernel, by decide⟩, ⟨.frommont 4 3, by decide +kernel, by decide⟩,
      ⟨.montmul 3 2 2, by decide +kernel, by decide⟩, ⟨.montmul 15 14 13, by decide +kernel, by decide⟩,
      ⟨Instr.montsqr 5 5, by decide +kernel, by decide⟩, List.forall_mem_nil _⟩
  · simp only [exists_decode_illegal_iff, List.forall_mem_cons]
    exact ⟨by decide, by decide, by decide, by decide, by decide, List.forall_mem_nil _⟩
end

section
/-! PROOFS of the command's life (spec 40_command.md R85 to R96): a CMD write by the state that takes it, the engine's
turn, what a completion reports and commits, a command in flight under host accesses, and what an outcome depends on. -/

namespace Sys2Proof.Machine

/-! ### The write to CMD -/

theorem State.writeCmd_fatal {s : State} (v : Word) (hf : s.status.fatal = true) : s.writeCmd v = s := by
  simp [State.writeCmd, hf]

theorem State.writeCmd_busy {s : State} (v : Word) (hf : s.status.fatal = false) (hb : s.status.busy = true) :
    s.writeCmd v = { s with status := { s.status with ovr := true } } := by
  simp [State.writeCmd, hf, hb]

theorem State.writeCmd_idle {s : State} (v : Word) (hf : s.status.fatal = false) (hb : s.status.busy = false) :
    s.writeCmd v = s.accept v := by
  simp [State.writeCmd, hf, hb]

/-- A write to CMD, as a step (R51). -/
theorem step_writeCmd {s : State} {v : Word} {rest : List Turn} (hw : s.cfg.wf = true)
    (hs : s.schedule = .access (.write (s.cfg.base + 0x010) 4 v) :: rest) :
    step s = .next { ({ s with schedule := rest } : State).writeCmd v with resp := .writeDone } :=
  step_write hw (by decide) (by decide) hs

/-! ### The engine's turn -/

theorem engineTurn_cmd {s : State} {i : Instr} (hb : s.status.busy = true) (hd : decode s.cmdlatch = .cmd i) :
    engineTurn s = exec i s := by
  simp [engineTurn, hb, hd]

theorem engineTurn_illegal {s : State} {why : IllegalWord} (hb : s.status.busy = true)
    (hd : decode s.cmdlatch = .illegal why) : engineTurn s = .next (s.complete .illegalCommand) := by
  simp [engineTurn, hb, hd]

/-- The engine's turn never faults (R90, R99). -/
theorem engineTurn_next (s : State) : ∃ t, engineTurn s = .next t := by
  cases hb : s.status.busy with
  | false => exact ⟨s, engineTurn_idle hb⟩
  | true =>
    cases hd : decode s.cmdlatch with
    | illegal why => exact ⟨_, engineTurn_illegal hb hd⟩
    | cmd i => exact engineTurn_cmd hb hd ▸ exec_next i s

/-! ### What a completion reports and commits -/

/-- R93, R142: a command enters the fatal state exactly when it reports INVARIANT_VIOLATION, and it never reports
ILLEGAL_COMMAND. -/
theorem ExecEffect.reports {i : Instr} {s t : State} (h : ExecEffect i s t) :
    t.status.fatal = (s.status.fatal || decide (t.status.err = .invariantViolation)) ∧
      t.status.err ≠ .illegalCommand := by
  cases h with
  | error k e he => obtain rfl | rfl := he <;> simp
  | context k r c hi hv hc => simp
  | result k d y hd hv hy => simp
  | fatal k d a b hi => simp

/-- R94: a command that reports an error changes nothing but STATUS and the model's count of draws. -/
theorem ExecEffect.eq_of_err_ne_none {i : Instr} {s t : State} (h : ExecEffect i s t) (herr : t.status.err ≠ .none) :
    t = { s with status := t.status, draws := t.draws } := by
  cases h with
  | error k e he => rfl
  | context k r c hi hv hc => exact absurd rfl herr
  | result k d y hd hv hy => exact absurd rfl herr
  | fatal k d a b hi => rfl

/-- R94: a command without a destination that succeeds leaves a valid context, and writes that only. -/
theorem ExecEffect.commits_context {i : Instr} {s t : State} (h : ExecEffect i s t) (hd : destOf i = none)
    (herr : t.status.err = .none) :
    t = { s with ctx := t.ctx, status := t.status, draws := t.draws } ∧ t.ctx.valid = true := by
  cases h with
  | error k e he => obtain rfl | rfl := he <;> cases herr
  | context k r c hi hv hc => exact ⟨rfl, hv⟩
  | result k d y hd' hv hy => rw [hd] at hd'; cases hd'
  | fatal k d a b hi => cases herr

/-- R94: a command with destination d that succeeds writes X[d] in every bit, and that register only. -/
theorem ExecEffect.commits_result {i : Instr} {s t : State} {d : RegIdx} (h : ExecEffect i s t)
    (hd : destOf i = some d) (herr : t.status.err = .none) :
    t = { s with x := t.x, status := t.status, draws := t.draws } ∧ (∀ j, j ≠ d → t.reg j = s.reg j) ∧
      (t.reg d).known = fullMask s.cfg.W := by
  obtain ⟨hframe, hregs, -⟩ := h.result_frame hd
  refine ⟨hframe, hregs, ?_⟩
  cases h with
  | error k e he => obtain rfl | rfl := he <;> cases herr
  | context k r c hi hv hc => subst hi; cases hd
  | result k d' y hd' hv hy =>
    obtain rfl : d' = d := Option.some.inj (hd'.symm.trans hd)
    simp
  | fatal k d' a b hi => cases herr

/-! ### A command in flight under host accesses -/

/-- From s to t the command in flight stays as it was accepted: nothing has changed but IE, flags of STATUS other than
BUSY, and the model's own fields (R59, R88, R95). -/
structure State.StaysInFlight (s t : State) : Prop where
  frame : t = { s with
    ie := t.ie, status := t.status, draws := t.draws, schedule := t.schedule, resp := t.resp }
  busy  : t.status.busy = true

theorem State.StaysInFlight.trans {s t u : State} (hst : s.StaysInFlight t) (htu : t.StaysInFlight u) :
    s.StaysInFlight u :=
  ⟨by rw [htu.frame, hst.frame], htu.busy⟩

/-- While a command is in flight no access touches what it was accepted with, and none takes a further turn. -/
theorem State.serve_staysInFlight {s : State} (hb : s.status.busy = true) (a : Access) :
    s.StaysInFlight (s.serve a) ∧ (s.serve a).schedule = s.schedule := by
  obtain ⟨k, w, ht⟩ | ⟨addr, n, v, rfl, hcase⟩ := s.serve_cases a
  · rw [ht]; exact ⟨⟨rfl, hb⟩, rfl⟩
  obtain ⟨-, ht⟩ | ⟨-, ht⟩ | ⟨-, ht⟩ | ⟨i, j, -, ht⟩ | ht := hcase <;> rw [ht]
  · exact ⟨⟨rfl, hb⟩, rfl⟩
  · obtain ⟨-, hv⟩ | ⟨-, -, hv⟩ | ⟨-, hidle, -⟩ := s.writeCmd_cases v
    · rw [hv]; exact ⟨⟨rfl, hb⟩, rfl⟩
    · rw [hv]; exact ⟨⟨rfl, hb⟩, rfl⟩
    · rw [hb] at hidle; cases hidle
  · obtain ⟨-, hv⟩ | ⟨-, hv⟩ := s.writeAck_cases v <;> rw [hv] <;> exact ⟨⟨rfl, hb⟩, rfl⟩
  · rw [State.writeXWord_busy i j v hb]; exact ⟨⟨rfl, hb⟩, rfl⟩
  · exact ⟨⟨rfl, hb⟩, rfl⟩

/-- One admitted access while a command is in flight, as a step. -/
theorem step_access_staysInFlight {s : State} {a : Access} {rest : List Turn} (hb : s.status.busy = true)
    (hs : s.schedule = .access a :: rest) (hw : a.inWindow s.cfg = true) (ha : a.admitted = true) :
    ∃ u, step s = .next u ∧ s.StaysInFlight u ∧ u.schedule = rest := by
  obtain ⟨hstays, hsched⟩ := State.serve_staysInFlight (s := { s with schedule := rest }) hb a
  refine ⟨_, (step_access hs).trans (hostTurn_eq (s := { s with schedule := rest }) hw ha), ?_, hsched⟩
  exact State.StaysInFlight.trans (t := { s with schedule := rest }) ⟨rfl, hb⟩ hstays

/-- A run from s goes through the pending accesses with the command in flight, and then on from s'. -/
theorem run_accesses_staysInFlight {accs : List Access} {s : State} (hb : s.status.busy = true)
    (hs : s.schedule = accs.map Turn.access)
    (haccs : ∀ a ∈ accs, a.inWindow s.cfg = true ∧ a.admitted = true) :
    ∃ s', (∀ k, core.run (accs.length + k) s = core.run k s') ∧ s.StaysInFlight s' ∧ s'.schedule = [] := by
  induction accs generalizing s with
  | nil => exact ⟨s, fun k => by rw [List.length_nil, Nat.zero_add], ⟨rfl, hb⟩, hs⟩
  | cons a accs ih =>
    rw [List.forall_mem_cons] at haccs
    obtain ⟨⟨hw, ha⟩, hrest⟩ := haccs
    obtain ⟨u, hstep, hsu, hu⟩ := step_access_staysInFlight hb hs hw ha
    have hcfg : u.cfg = s.cfg := by rw [hsu.frame]
    obtain ⟨s', hrun, hus, hempty⟩ := ih hsu.busy hu (hcfg ▸ hrest)
    refine ⟨s', fun k => ?_, hsu.trans hus, hempty⟩
    rw [List.length_cons, Nat.add_right_comm, core_run_succ _ hstep, hrun k]

/-! ### What an outcome depends on -/

/-- The outcomes of a command in two states agree: the code, the context, and on success the destinations, X[d] and
X[d'] (R96). -/
structure State.SameOutcome (d d' : RegIdx) (t t' : State) : Prop where
  err    : t.status.err = t'.status.err
  ctx    : t.ctx = t'.ctx
  result : t.status.err = .none → t.reg d = t'.reg d'

theorem State.SameOutcome.agrees {d d' : RegIdx} {t t' : State} {hasDest : Prop} (h : SameOutcome d d' t t') :
    t.status.err = t'.status.err ∧ t.ctx = t'.ctx ∧ (t.status.err = .none → hasDest → t.reg d = t'.reg d') :=
  ⟨h.err, h.ctx, fun herr _ => h.result herr⟩

/-- The code and the context of CTXINIT depend only on the modulus and the context before it. -/
theorem State.constructContext_congr {s s' : State} (hctx : s.ctx = s'.ctx) (n : Nat) :
    (s.constructContext n).status.err = (s'.constructContext n).status.err ∧
      (s.constructContext n).ctx = (s'.constructContext n).ctx := by
  rcases Nat.mod_two_eq_zero_or_one n with h2 | h2
  · rw [State.constructContext_even _ h2, State.constructContext_even _ h2]
    exact ⟨rfl, hctx⟩
  · obtain ⟨c, hc, -⟩ := makeContext_of_odd h2
    rw [State.constructContext_odd _ h2 hc, State.constructContext_odd _ h2 hc]
    exact ⟨rfl, rfl⟩

section SameOutcome
variable {s s' : State} (d d' : RegIdx)

/-- The shared context check: with no context the outcome is NO_CONTEXT in both states. -/
theorem State.needContext_sameOutcome (hctx : s.ctx = s'.ctx) {body body' : State → State}
    (h : SameOutcome d d' (body s) (body' s')) : SameOutcome d d' (s.needContext body) (s'.needContext body') := by
  unfold State.needContext
  rw [← hctx]
  split
  · exact h
  · exact ⟨rfl, hctx, fun herr => by cases herr⟩

/-- The commit of one value to the destinations. -/
theorem State.commit_sameOutcome (hcfg : s.cfg = s'.cfg) (hctx : s.ctx = s'.ctx) (y : Nat) :
    SameOutcome d d' ((s.writeX d y).complete .none) ((s'.writeX d' y).complete .none) :=
  ⟨rfl, hctx, fun _ => by simp [hcfg]⟩

/-- The end of MONTMUL on one value of the pipeline. -/
theorem State.commitProduct_sameOutcome (hcfg : s.cfg = s'.cfg) (hctx : s.ctx = s'.ctx) (o : Option Nat) :
    SameOutcome d d' (s.commitProduct d o) (s'.commitProduct d' o) := by
  cases o with
  | none => exact ⟨rfl, hctx, fun herr => by cases herr⟩
  | some u => exact State.commit_sameOutcome d d' hcfg hctx u

end SameOutcome

/-! ### The commands on written sources -/

section OfHolds
variable {s : State} {a b : RegIdx} {va vb : Nat} (ha : s.Holds a va)
include ha

theorem exec_ctxinit_of_holds : exec (.ctxinit a) s = .next (s.constructContext va) := by
  rw [exec_ctxinit, State.readX_of_holds ha]

theorem exec_tomont_of_holds (d : RegIdx) : exec (.tomont d a) s =
    .next (s.needContext fun s => (s.writeX d (toMontgomery s.ctx va)).complete .none) := by
  simp [exec, execTomont, State.needContext, State.readX_of_holds ha]

theorem exec_frommont_of_holds (d : RegIdx) : exec (.frommont d a) s =
    .next (s.needContext fun s => (s.writeX d (fromMontgomery s.ctx va)).complete .none) := by
  simp [exec, execFrommont, State.needContext, State.readX_of_holds ha]

theorem exec_montmul_of_holds (hb : s.Holds b vb) (d : RegIdx) : exec (.montmul d a b) s =
    .next (s.needContext fun s => s.commitProduct d (redc s.ctx va vb)) := by
  simp [exec, execMontmul, State.needContext, State.readX_of_holds ha, State.readX_of_holds hb]

end OfHolds

end Sys2Proof.Machine

open Sys2Proof Sys2Proof.Machine

/-- Settles O9, by the effects of a command. -/
theorem everyCommandCompletesAndReports : Obligations.EveryCommandCompletesAndReports := by
  unfold Obligations.EveryCommandCompletesAndReports
  intro s i
  obtain ⟨t, ht⟩ := exec_next i s
  have heff := exec_effect ht
  exact ⟨t, ht, heff.completes.busy, heff.completes.done, heff.completes.ovr, heff.reports⟩

/-- Settles O10, by the effects of a command: the commit of the context, or of the destination register. -/
theorem resultsCommittedOnlyOnSuccess : Obligations.ResultsCommittedOnlyOnSuccess := by
  unfold Obligations.ResultsCommittedOnlyOnSuccess
  intro s t i h
  have heff := exec_effect h
  refine ⟨heff.eq_of_err_ne_none, fun herr => ?_⟩
  cases i with
  | ctxinit r => exact heff.commits_context rfl herr
  | tomont d a => exact heff.commits_result rfl herr
  | frommont d a => exact heff.commits_result rfl herr
  | montmul d a b => exact heff.commits_result rfl herr

/-- Settles O12, by induction on the pending accesses: each leaves the command in flight, and then the engine has every
turn. -/
theorem commandInFlightCompletes : Obligations.CommandInFlightCompletes := by
  unfold Obligations.CommandInFlightCompletes
  intro s accs hb hs haccs
  obtain ⟨s', hrun, hstays, hempty⟩ := run_accesses_staysInFlight hb hs haccs
  obtain ⟨t, ht⟩ := engineTurn_next s'
  have hcomp := engineTurn_completes hstays.busy ht
  have hlast : s'.lastcmd = s.lastcmd := by rw [hstays.frame]
  refine ⟨s', t, hrun 0, by rw [hstays.frame], by rw [hstays.frame], by rw [hstays.frame], hlast, hstays.busy, ht, ?_,
    hcomp.busy, hcomp.done, ?_⟩
  · exact (hrun 1).trans (core_run_succ 0 ((step_empty hempty).trans ht))
  · rw [hcomp.frame]; exact hlast

/-- Settles O28: on written sources each command is a function of their values and the context, up to where the result
goes. -/
theorem outcomeDependsOnlyOnSourcesAndContext : Obligations.OutcomeDependsOnlyOnSourcesAndContext := by
  unfold Obligations.OutcomeDependsOnlyOnSourcesAndContext
  intro s s' d a b d' a' b' va vb hcfg hctx ha hb ha' hb'
  simp only [List.forall_mem_cons]
  refine ⟨?_, ?_, ?_, ?_, List.forall_mem_nil _⟩
  · obtain ⟨herr, hc⟩ := State.constructContext_congr hctx va
    exact ⟨_, _, exec_ctxinit_of_holds ha, exec_ctxinit_of_holds ha', herr, hc, fun _ hne => absurd rfl (hne a)⟩
  · refine ⟨_, _, exec_tomont_of_holds ha d, exec_tomont_of_holds ha' d', State.SameOutcome.agrees ?_⟩
    exact State.needContext_sameOutcome d d' hctx (hctx ▸ State.commit_sameOutcome d d' hcfg hctx _)
  · refine ⟨_, _, exec_frommont_of_holds ha d, exec_frommont_of_holds ha' d', State.SameOutcome.agrees ?_⟩
    exact State.needContext_sameOutcome d d' hctx (hctx ▸ State.commit_sameOutcome d d' hcfg hctx _)
  · refine ⟨_, _, exec_montmul_of_holds ha hb d, exec_montmul_of_holds ha' hb' d', State.SameOutcome.agrees ?_⟩
    exact State.needContext_sameOutcome d d' hctx (hctx ▸ State.commitProduct_sameOutcome d d' hcfg hctx _)

/-- Settles O5, by the engine's turn with a command in flight. -/
theorem stepRunsTheCommandInFlight : Obligations.StepRunsTheCommandInFlight := by
  unfold Obligations.StepRunsTheCommandInFlight
  refine ⟨fun s i hb hd => ⟨fun rest hs => ?_, fun hs => ?_⟩, fun s why hb hd => ⟨fun rest hs => ?_, fun hs => ?_⟩⟩
  · exact (step_engine hs).trans (engineTurn_cmd hb hd)
  · exact (step_empty hs).trans (engineTurn_cmd hb hd)
  · exact step_engine hs
  · exact step_empty hs

/-- Settles O6: the completion with ILLEGAL_COMMAND. -/
theorem illegalWordCompletesWithIllegalCommand : Obligations.IllegalWordCompletesWithIllegalCommand := by
  unfold Obligations.IllegalWordCompletesWithIllegalCommand
  intro s why hb hd
  exact engineTurn_illegal hb hd

/-- Settles O7: the completion with NO_CONTEXT, which every command but CTXINIT shares. -/
theorem noContextCompletesWithNoContext : Obligations.NoContextCompletesWithNoContext := by
  unfold Obligations.NoContextCompletesWithNoContext
  intro s d a b hv
  exact ⟨exec_noContext hv (by simp), exec_noContext hv (by simp), exec_noContext hv (by simp)⟩

/-- Settles O8: the idle engine's turn at the state it gets. -/
theorem idleEngineHoldsAllState : Obligations.IdleEngineHoldsAllState := by
  unfold Obligations.IdleEngineHoldsAllState
  intro s hb
  exact ⟨fun rest hs => (step_engine hs).trans (engineTurn_idle hb),
    fun hs => (step_empty hs).trans (engineTurn_idle hb)⟩

/-- Settles O36: the write as a step, ignored because FATAL = 1. -/
theorem cmdWriteIgnoredWhileFatal : Obligations.CmdWriteIgnoredWhileFatal := by
  unfold Obligations.CmdWriteIgnoredWhileFatal
  intro s v rest hw hs hf
  rw [step_writeCmd hw hs, State.writeCmd_fatal (s := { s with schedule := rest }) v hf]

/-- Settles O37: the write as a step, dropped because BUSY = 1. -/
theorem cmdWriteDroppedWhileBusy : Obligations.CmdWriteDroppedWhileBusy := by
  unfold Obligations.CmdWriteDroppedWhileBusy
  intro s v rest hw hs hf hb
  rw [step_writeCmd hw hs, State.writeCmd_busy (s := { s with schedule := rest }) v hf hb]

/-- Settles O38: the write as a step, accepted because FATAL = 0 and BUSY = 0. -/
theorem cmdWriteAcceptedWhenIdle : Obligations.CmdWriteAcceptedWhenIdle := by
  unfold Obligations.CmdWriteAcceptedWhenIdle
  intro s v rest hw hs hf hb
  rw [step_writeCmd hw hs, State.writeCmd_idle (s := { s with schedule := rest }) v hf hb]
  simp [State.accept, hf]
end

section
/-! PROOFS of CTXINIT (spec 41_ctxinit.md R100 to R111): the rule determines the context of an odd modulus, so a
context shown sound for a modulus is the one CTXINIT installs. -/

namespace Sys2Proof.Machine

/-- R102, R111: R and N have no common factor, since N is odd. -/
theorem Context.Sound.gcd_eq_one {W : Nat} {c : Context} (h : c.Sound W) : Nat.gcd (2 ^ c.k) c.n = 1 := by
  have hodd : Odd c.n := Nat.odd_iff.2 h.1
  exact (Nat.coprime_two_left.2 hodd).pow_left c.k

/-- R101 to R103: a modulus has one sound context: K is its bit length, RINV and NPRIME are inverses modulo N and R. -/
theorem Context.Sound.unique {V W : Nat} {c c' : Context} (h : c.Sound V) (h' : c'.Sound W) (hn : c.n = c'.n)
    (hv : c.valid = c'.valid) : c = c' := by
  have hgcd := h.gcd_eq_one
  obtain ⟨n, k, rinv, np, valid⟩ := c
  obtain ⟨n', k', rinv', np', valid'⟩ := c'
  obtain rfl : n = n' := hn
  obtain rfl : valid = valid' := hv
  obtain ⟨-, -, hk, hrlt, hr, hnplt, hnp, -⟩ := h
  obtain ⟨-, -, hk', hrlt', hr', hnplt', hnp', -⟩ := h'
  obtain rfl : k = k' := hk.trans hk'.symm
  obtain rfl : rinv = rinv' := inverse_unique hrlt hrlt' hr hr'
  have hmod : np ≡ np' [MOD 2 ^ k] := Nat.ModEq.cancel_left_of_coprime hgcd (hnp.trans hnp'.symm)
  obtain rfl : np = np' := hmod.eq_of_lt_of_lt hnplt hnplt'
  rfl

/-- R101 to R104: the context built for N is the sound one. -/
theorem makeContext_of_sound {W : Nat} {c : Context} (h : c.Sound W) (hv : c.valid = true) :
    makeContext c.n = some c := by
  obtain ⟨c', hc', hn, hv', h'⟩ := makeContext_sound h.1 h.n_lt_width
  rw [hc', h'.unique h hn (hv'.trans hv.symm)]

/-- R103: NPRIME is the exact quotient of the signed numerator by N, reduced modulo R. -/
theorem makeContext_nprime {n : Nat} {c : Context} (h : makeContext n = some c) :
    ∃ q : Int, q * (n : Int) = 2 ^ c.k * (c.rinv : Int) - 1 ∧ (c.nprime : Int) = q % 2 ^ c.k := by
  simp only [makeContext] at h
  split at h
  next => cases h
  next hexact =>
    cases h
    refine ⟨_, (Int.ediv_mul_cancel (Int.dvd_of_emod_eq_zero (not_not.1 hexact))).trans ?_, ?_⟩
    · push_cast
      rfl
    · rw [Int.toNat_of_nonneg (Int.emod_nonneg _ (by positivity))]
      push_cast
      rfl

/-- R109: the context of the modulus 1. -/
theorem Context.sound_one : Context.Sound 1 ⟨1, 1, 0, 1, true⟩ := by decide

theorem bitlen_two_pow_sub_one (W : Nat) : bitlen (2 ^ W - 1) = W := by
  have hpos := Nat.two_pow_pos W
  refine Nat.le_antisymm (bitlen_le (by omega)) ?_
  have hlt := lt_two_pow_bitlen (2 ^ W - 1)
  exact (Nat.pow_le_pow_iff_right (by decide)).1 (show 2 ^ W ≤ 2 ^ bitlen (2 ^ W - 1) by omega)

/-- R110: the context of the largest modulus.  R = N + 1, so R is 1 modulo N and its own inverse. -/
theorem Context.sound_largest {W : Nat} (hW : 2 ≤ W) : Context.Sound W ⟨2 ^ W - 1, W, 1, 1, true⟩ := by
  obtain ⟨m, hm⟩ : ∃ m, 2 ^ W = 4 * m := pow_dvd_pow 2 hW
  have hpos := Nat.two_pow_pos W
  have hmod : 2 ^ W % (2 ^ W - 1) = 1 % (2 ^ W - 1) := by
    rw [Nat.mod_eq_sub_mod (by omega), show 2 ^ W - (2 ^ W - 1) = 1 by omega]
  refine ⟨?_, ?_, (bitlen_two_pow_sub_one W).symm, ?_, ?_, ?_, ?_, fun _ => ?_⟩ <;> dsimp only
  · omega
  · omega
  · omega
  · rw [Nat.mul_one, hmod]
  · omega
  · rw [Nat.mul_one, Nat.mod_eq_of_lt (by omega)]
  · omega

section Ctxinit
variable {s s' : State} {r : RegIdx} {n : Nat}

/-- A source register read changes no field but the count of draws. -/
theorem State.eq_of_readX (hr : s.readX r = (n, s')) : s' = { s with draws := s'.draws } := by
  simpa [hr] using s.readX_snd r

theorem State.status_of_readX (hr : s.readX r = (n, s')) : s'.status = s.status := by
  rw [State.eq_of_readX hr]

/-- R106: CTXINIT of an odd modulus. -/
theorem exec_ctxinit_odd {c : Context} (hr : s.readX r = (n, s')) (hodd : n % 2 = 1) (hc : makeContext n = some c) :
    exec (.ctxinit r) s = .next { s' with
      ctx := c, status := ⟨false, true, s.status.fatal, s.status.ovr, .none⟩ } := by
  rw [exec_ctxinit, hr, State.constructContext_odd s' hodd hc, ← State.status_of_readX hr]
  rfl

/-- R106, R107: CTXINIT of an even modulus. -/
theorem exec_ctxinit_even (hr : s.readX r = (n, s')) (heven : n % 2 = 0) :
    exec (.ctxinit r) s = .next { s' with
      status := ⟨false, true, s.status.fatal, s.status.ovr, .invalidModulus⟩ } := by
  rw [exec_ctxinit, hr, State.constructContext_even s' heven, ← State.status_of_readX hr]
  rfl

/-- CTXINIT of a written register that holds the modulus of a sound context installs that context. -/
theorem exec_ctxinit_of_sound {W : Nat} {c : Context} (h : s.Holds r c.n) (hc : c.Sound W) (hv : c.valid = true) :
    exec (.ctxinit r) s = .next { s with
      ctx := c, status := ⟨false, true, s.status.fatal, s.status.ovr, .none⟩ } :=
  exec_ctxinit_odd (State.readX_of_holds h) hc.1 (makeContext_of_sound hc hv)

end Ctxinit

/-- R43, R111: a command without a destination that succeeds leaves a sound context. -/
theorem ExecEffect.sound_of_success {i : Instr} {s t : State} (h : ExecEffect i s t) (hd : destOf i = none)
    (herr : t.status.err = .none) : t.ctx.Sound s.cfg.W := by
  cases h with
  | error k e he => obtain rfl | rfl := he <;> cases herr
  | context k r c hi hv hc => exact hc
  | result k d y hd' hv hy => rw [hd] at hd'; cases hd'
  | fatal k d a b hi => cases herr

/-- R114, R118, R128: under a sound context every command with a destination writes 0 for the operands 0. -/
theorem exec_zero_operands {W : Nat} {s : State} {d a b : RegIdx} (hc : s.ctx.Sound W) (hv : s.ctx.valid = true)
    (ha : s.Holds a 0) (hb : s.Holds b 0) {i : Instr} (hi : i ∈ [Instr.tomont d a, .frommont d a, .montmul d a b]) :
    exec i s = .next ((s.writeX d 0).complete .none) := by
  have hredc : redc s.ctx 0 0 = some 0 := by simpa using redc_in_domain hc hc.n_pos hc.n_pos
  simp only [List.mem_cons, List.not_mem_nil, or_false] at hi
  rcases hi with rfl | rfl | rfl
  · simp [exec_tomont d a hv, State.readX_of_holds ha]
  · simp [exec_frommont d a hv, State.readX_of_holds ha]
  · simp [exec_montmul d a b hv, State.readX_of_holds ha, State.readX_of_holds hb, hredc, State.commitProduct]

end Sys2Proof.Machine

open Sys2Proof Sys2Proof.Machine

/-- Settles O13: the context made for an odd modulus is sound, and its NPRIME is the exact quotient modulo 2^K. -/
theorem ctxinitConstructsTheContext : Obligations.CtxinitConstructsTheContext := by
  unfold Obligations.CtxinitConstructsTheContext
  intro s s' r n hr hodd
  have hW : n < 2 ^ s.cfg.W := by simpa [hr] using s.readX_lt r
  obtain ⟨c, hc, rfl, hv, hsound⟩ := makeContext_sound hodd hW
  have hk_le := hsound.k_le
  obtain ⟨hlo, hhi⟩ := bitlen_bounds hsound.n_pos.ne'
  have hpos := bitlen_pos hsound.n_pos.ne'
  obtain ⟨-, -, hk, hrlt, hrinv, hnp, -, -⟩ := hsound
  rw [← hk] at hlo hhi hpos
  refine ⟨c.k, c.rinv, c.nprime, hpos, hk_le, hlo, hhi, hrlt, hrinv, hnp, makeContext_nprime hc, ?_⟩
  rw [exec_ctxinit_odd hr hodd hc, ← hv]

/-- Settles O17: the context (2^W - 1, W, 1, 1) is sound, and a modulus has one sound context. -/
theorem largestModulus : Obligations.LargestModulus := by
  unfold Obligations.LargestModulus
  intro s r hw hr
  obtain ⟨-, hW, -, -⟩ := (Config.wf_iff s.cfg).1 hw
  exact exec_ctxinit_of_sound hr (Context.sound_largest (by omega)) rfl

/-- Settles O18: a successful CTXINIT leaves a sound context. -/
theorem constructionInvariants : Obligations.ConstructionInvariants := by
  unfold Obligations.ConstructionInvariants
  intro s t r h herr
  have hsound := (exec_effect h).sound_of_success rfl herr
  have hlt := hsound.n_lt
  have hgcd := hsound.gcd_eq_one
  obtain ⟨-, -, -, -, hrinv, -, hnp, hexact⟩ := hsound
  refine ⟨fun hn => ⟨?_, ?_, hlt, hgcd⟩, hnp⟩
  · rw [hrinv, Nat.mod_eq_of_lt (by omega)]
  · have hcast : (2 : Int) ^ t.ctx.k * t.ctx.rinv = t.ctx.n * t.ctx.nprime + 1 := by exact_mod_cast hexact hn
    omega

/-- Settles O14: the read of the source moves the draws at most, and an even modulus completes with INVALID_MODULUS. -/
theorem ctxinitRejectsAnEvenModulus : Obligations.CtxinitRejectsAnEvenModulus := by
  unfold Obligations.CtxinitRejectsAnEvenModulus
  intro s s' r n hr heven
  exact ⟨State.eq_of_readX hr, exec_ctxinit_even hr heven⟩

/-- Settles O16: (1, 1, 0, 1) is the sound context of the modulus 1, and each later command writes 0. -/
theorem modulusOne : Obligations.ModulusOne := by
  unfold Obligations.ModulusOne
  refine ⟨fun s r hr => ?_, fun s d a b hctx ha hb i hi => ?_⟩
  · exact exec_ctxinit_of_sound hr Context.sound_one rfl
  · have hsound : s.ctx.Sound 1 := hctx ▸ Context.sound_one
    have hexec := exec_zero_operands hsound (by rw [hctx]) ha hb hi
    exact ⟨_, hexec, rfl, s.holds_writeX d 0 (Nat.two_pow_pos _)⟩
end

section
/-! PROOFS of TOMONT and FROMMONT (spec 42_domain.md R112 to R120): the two maps are inverse to each other modulo N,
and each command commits its map of the source value. -/

namespace Sys2Proof.Machine

section Maps
variable {W : Nat} {c : Context} (h : c.Sound W)
include h

theorem Context.Sound.toMontgomery_lt (t : Nat) : toMontgomery c t < c.n := Nat.mod_lt _ h.n_pos

theorem Context.Sound.fromMontgomery_lt (m : Nat) : fromMontgomery c m < c.n := Nat.mod_lt _ h.n_pos

/-- R * RINV cancels modulo N. -/
theorem Context.Sound.mul_two_pow_mul_rinv_modEq (t : Nat) : t * (2 ^ c.k * c.rinv) ≡ t [MOD c.n] := by
  have hinv : 2 ^ c.k * c.rinv ≡ 1 [MOD c.n] := h.rinv_mod
  simpa using hinv.mul_left t

/-- R117, R119: domain entry undoes domain exit, modulo N. -/
theorem Context.Sound.toMontgomery_fromMontgomery (m : Nat) : toMontgomery c (fromMontgomery c m) = m % c.n :=
  calc fromMontgomery c m * 2 ^ c.k
    _ ≡ m * c.rinv * 2 ^ c.k [MOD c.n] := (Nat.mod_modEq _ _).mul_right _
    _ = m * (2 ^ c.k * c.rinv) := by ring
    _ ≡ m [MOD c.n] := h.mul_two_pow_mul_rinv_modEq m

/-- R119: domain exit undoes domain entry, modulo N. -/
theorem Context.Sound.fromMontgomery_toMontgomery (t : Nat) : fromMontgomery c (toMontgomery c t) = t % c.n :=
  calc toMontgomery c t * c.rinv
    _ ≡ t * 2 ^ c.k * c.rinv [MOD c.n] := (Nat.mod_modEq _ _).mul_right _
    _ = t * (2 ^ c.k * c.rinv) := by ring
    _ ≡ t [MOD c.n] := h.mul_two_pow_mul_rinv_modEq t

/-- R117: FROMMONT's value is the only one below N that domain entry takes to m modulo N. -/
theorem Context.Sound.eq_fromMontgomery {m z : Nat} (hz : z < c.n) (hm : toMontgomery c z = m % c.n) :
    z = fromMontgomery c m :=
  calc z = fromMontgomery c (toMontgomery c z) := by rw [h.fromMontgomery_toMontgomery, Nat.mod_eq_of_lt hz]
    _ = fromMontgomery c m := by rw [hm]; exact (Nat.mod_modEq m c.n).mul_right _

end Maps

/-- R43: under the invariant a valid context is sound. -/
theorem State.Inv.sound {s : State} (h : s.Inv) (hv : s.ctx.valid = true) : s.ctx.Sound s.cfg.W := by
  obtain ⟨-, -, hsound, -⟩ := h
  exact hsound hv

section Commit
variable {s s' : State} {r : RegIdx} {v : Nat} (d : RegIdx)

/-- The commit of y to X[d] after a source read, field by field. -/
theorem State.commit_of_readX (hr : s.readX r = (v, s')) (y : Nat) : (s'.writeX d y).complete .none = { s' with
    x := s'.x.set d.val ⟨y, fullMask s.cfg.W⟩
    status := ⟨false, true, s.status.fatal, s.status.ovr, .none⟩ } := by
  have hcfg : s'.cfg = s.cfg := by rw [State.eq_of_readX hr]
  rw [← hcfg, ← State.status_of_readX hr]
  rfl

/-- R114: TOMONT with a valid context, written source or not. -/
theorem exec_tomont_of_readX (hv : s.ctx.valid = true) (hr : s.readX r = (v, s')) :
    exec (.tomont d r) s = .next ((s'.writeX d (toMontgomery s.ctx v)).complete .none) := by
  rw [exec_tomont d r hv, hr]
  rfl

/-- R118: FROMMONT with a valid context, written source or not. -/
theorem exec_frommont_of_readX (hv : s.ctx.valid = true) (hr : s.readX r = (v, s')) :
    exec (.frommont d r) s = .next ((s'.writeX d (fromMontgomery s.ctx v)).complete .none) := by
  rw [exec_frommont d r hv, hr]
  rfl

/-- A value committed below the modulus of a sound context is held in X[d]. -/
theorem State.holds_commit (hs : s.ctx.Sound s.cfg.W) {y : Nat} (hy : y < s.ctx.n) :
    ((s.writeX d y).complete .none).Holds d y :=
  s.holds_writeX d y (Nat.lt_trans hy hs.n_lt_width)

end Commit

section RoundTrip
variable {s : State} {a : RegIdx} {v : Nat} (hs : s.ctx.Sound s.cfg.W) (hv : s.ctx.valid = true) (ha : s.Holds a v)
  (b c : RegIdx)
include hs hv ha

/-- R119: TOMONT then FROMMONT, with any of the registers the same. -/
theorem exec_tomont_then_frommont : ∃ s1 s2, exec (.tomont b a) s = .next s1 ∧ exec (.frommont c b) s1 = .next s2 ∧
    s1.status.err = .none ∧ s2.status.err = .none ∧ s2.Holds c (v % s.ctx.n) := by
  have hb := State.holds_commit b hs (hs.toMontgomery_lt v)
  refine ⟨_, _, exec_tomont_of_readX b hv (State.readX_of_holds ha),
    exec_frommont_of_readX c hv (State.readX_of_holds hb), rfl, rfl, ?_⟩
  rw [← hs.fromMontgomery_toMontgomery v]
  exact State.holds_commit (s := (s.writeX b _).complete .none) c hs (hs.fromMontgomery_lt _)

/-- R119: FROMMONT then TOMONT, with any of the registers the same. -/
theorem exec_frommont_then_tomont : ∃ s1 s2, exec (.frommont b a) s = .next s1 ∧ exec (.tomont c b) s1 = .next s2 ∧
    s1.status.err = .none ∧ s2.status.err = .none ∧ s2.Holds c (v % s.ctx.n) := by
  have hb := State.holds_commit b hs (hs.fromMontgomery_lt v)
  refine ⟨_, _, exec_frommont_of_readX b hv (State.readX_of_holds ha),
    exec_tomont_of_readX c hv (State.readX_of_holds hb), rfl, rfl, ?_⟩
  rw [← hs.toMontgomery_fromMontgomery v]
  exact State.holds_commit (s := (s.writeX b _).complete .none) c hs (hs.toMontgomery_lt _)

end RoundTrip

/-- R120, R130: a command with destination d that succeeds under a sound context leaves a value below N in X[d]. -/
theorem ExecEffect.result_lt {i : Instr} {s t : State} {d : RegIdx} (h : ExecEffect i s t) (hd : destOf i = some d)
    (hs : s.ctx.Sound s.cfg.W) (herr : t.status.err = .none) : ∃ y, y < s.ctx.n ∧ t.Holds d y := by
  cases h with
  | error k e he => obtain rfl | rfl := he <;> cases herr
  | context k r c hi hv hc => subst hi; cases hd
  | result k d' y hd' hv hy =>
    obtain rfl : d' = d := Option.some.inj (hd'.symm.trans hd)
    exact ⟨y, hy _ hs, State.holds_commit (s := { s with draws := k }) d' hs (hy _ hs)⟩
  | fatal k d' a b hi => cases herr

end Sys2Proof.Machine

open Sys2Proof Sys2Proof.Machine

/-- Settles O19: TOMONT commits the domain entry of its source value, which is below N. -/
theorem tomontEntersTheDomain : Obligations.TomontEntersTheDomain := by
  unfold Obligations.TomontEntersTheDomain
  intro s s' d r v hinv hv hr
  have hs := hinv.sound hv
  refine ⟨hs.toMontgomery_lt v, hs.n_lt_width, ?_⟩
  rw [exec_tomont_of_readX d hv hr, State.commit_of_readX d hr, toMontgomery]

/-- Settles O20: FROMMONT commits the domain exit of its source value, the only value that domain entry takes back. -/
theorem frommontLeavesTheDomain : Obligations.FrommontLeavesTheDomain := by
  unfold Obligations.FrommontLeavesTheDomain
  intro s s' d r v hinv hv hr
  have hs := hinv.sound hv
  have hlt := hs.fromMontgomery_lt v
  refine ⟨fromMontgomery s.ctx v, rfl, hlt, Nat.lt_trans hlt hs.n_lt_width, hs.toMontgomery_fromMontgomery v,
    fun z hz hm => hs.eq_fromMontgomery hz hm, ?_⟩
  rw [exec_frommont_of_readX d hv hr, State.commit_of_readX d hr]

/-- Settles O21: the two maps are inverse to each other modulo N, and the second command finds the first one's result. -/
theorem domainRoundTrip : Obligations.DomainRoundTrip := by
  unfold Obligations.DomainRoundTrip
  intro s a b c v hinv hv ha
  have hs := hinv.sound hv
  obtain ⟨s1, s2, h1, h2, herr1, herr2, hc⟩ := exec_tomont_then_frommont hs hv ha b c
  refine ⟨⟨s1, s2, h1, h2, herr1, herr2, hc, fun hlt => ?_⟩, exec_frommont_then_tomont hs hv ha b c⟩
  rwa [Nat.mod_eq_of_lt hlt] at hc

/-- Settles O27, by the effects of a command: a result is written below the modulus. -/
theorem resultsLieBelowTheModulus : Obligations.ResultsLieBelowTheModulus := by
  unfold Obligations.ResultsLieBelowTheModulus
  intro s t d a b hinv hv i hi h herr
  have hd : destOf i = some d := by fin_cases hi <;> rfl
  exact (exec_effect h).result_lt hd (hinv.sound hv) herr
end

section
/-! PROOFS of MONTMUL (spec 43_montmul.md R121 to R133): the bounds of the REDC stages, the two ways the command can
end, and the homomorphism sequence as three kinds of commit. -/

namespace Sys2Proof.Machine

/-- R124: the shift of stage 3, as the division the rules write. -/
theorem redcU_eq_div (c : Context) (t : Nat) : redcU c t = (t + redcM c t * c.n) / 2 ^ c.k :=
  Nat.shiftRight_eq_div_pow _ _

/-- R131: the product of operands below N is below N^2. -/
theorem Context.mul_lt_sq {c : Context} {a b : Nat} (ha : a < c.n) (hb : b < c.n) : a * b < c.n ^ 2 := by
  rw [pow_two]
  exact Nat.mul_lt_mul'' ha hb

section Bounds
variable {W : Nat} {c : Context} (h : c.Sound W)
include h

/-- R131: the bound m * N < R * N. -/
theorem Context.Sound.redcM_mul_lt (t : Nat) : redcM c t * c.n < 2 ^ c.k * c.n :=
  Nat.mul_lt_mul_of_pos_right (redcM_lt c t) h.n_pos

/-- R131: N^2 < N * R. -/
theorem Context.Sound.n_sq_lt : c.n ^ 2 < c.n * 2 ^ c.k := by
  rw [pow_two]
  exact Nat.mul_lt_mul_of_pos_left h.n_lt h.n_pos

/-- R131: the product of operands below N is below N * R. -/
theorem Context.Sound.mul_lt_of_lt {a b : Nat} (ha : a < c.n) (hb : b < c.n) : a * b < c.n * 2 ^ c.k :=
  (Context.mul_lt_sq ha hb).trans h.n_sq_lt

/-- R131: the sum s = t + m * N of stage 3 is below 2 * N * R for operands below N. -/
theorem Context.Sound.add_redcM_mul_lt {a b : Nat} (ha : a < c.n) (hb : b < c.n) :
    a * b + redcM c (a * b) * c.n < 2 * c.n * 2 ^ c.k := by
  have hprod := h.mul_lt_of_lt ha hb
  have hm := h.redcM_mul_lt (a * b)
  linarith

/-- R131: u reaches 2N only on a product of at least N * R + N, since m * N is at most (R - 1) * N. -/
theorem Context.Sound.le_of_two_mul_le_redcU {t : Nat} (hu : 2 * c.n ≤ redcU c t) : c.n * 2 ^ c.k + c.n ≤ t := by
  have hexact := redcU_mul h t
  have hlow : 2 * c.n * 2 ^ c.k ≤ redcU c t * 2 ^ c.k := Nat.mul_le_mul_right _ hu
  have hm : (redcM c t + 1) * c.n ≤ 2 ^ c.k * c.n := Nat.mul_le_mul_right _ (redcM_lt c t)
  linarith

/-- R129: m * N is -t modulo R, because t + m * N is divisible by R. -/
theorem Context.Sound.redcM_mul_mod (t : Nat) :
    redcM c t * c.n % 2 ^ c.k = (2 ^ c.k - t % 2 ^ c.k) % 2 ^ c.k := by
  have hzero : t + redcM c t * c.n ≡ 0 [MOD 2 ^ c.k] := Nat.modEq_zero_iff_dvd.2 (redc_divides h t)
  have hneg : t + (2 ^ c.k - t % 2 ^ c.k) ≡ 0 [MOD 2 ^ c.k] := by
    have hle := (Nat.mod_lt t (Nat.two_pow_pos c.k)).le
    calc t + (2 ^ c.k - t % 2 ^ c.k)
      _ ≡ t % 2 ^ c.k + (2 ^ c.k - t % 2 ^ c.k) [MOD 2 ^ c.k] := (Nat.mod_modEq t _).symm.add_right _
      _ = 2 ^ c.k := Nat.add_sub_cancel' hle
      _ ≡ 0 [MOD 2 ^ c.k] := Nat.modEq_zero_iff_dvd.2 dvd_rfl
  exact Nat.ModEq.add_left_cancel' t (hzero.trans hneg.symm)

/-- R133: the Montgomery product of two domain values is the domain value of the product. -/
theorem Context.Sound.toMontgomery_mul (a b : Nat) :
    toMontgomery c a * toMontgomery c b * c.rinv % c.n = toMontgomery c (a * b) :=
  calc toMontgomery c a * toMontgomery c b * c.rinv
    _ ≡ a * 2 ^ c.k * (b * 2 ^ c.k) * c.rinv [MOD c.n] :=
      ((Nat.mod_modEq _ _).mul (Nat.mod_modEq _ _)).mul_right _
    _ = a * b * 2 ^ c.k * (2 ^ c.k * c.rinv) := by ring
    _ ≡ a * b * 2 ^ c.k [MOD c.n] := h.mul_two_pow_mul_rinv_modEq _

end Bounds

/-! ### The two ends of MONTMUL -/

section Montmul
variable {s s1 s2 : State} {a b : RegIdx} {va vb : Nat} (hv : s.ctx.valid = true) (ha : s.readX a = (va, s1))
  (hb : s1.readX b = (vb, s2)) (d : RegIdx)
include hv ha hb

/-- R128: MONTMUL with a valid context, written sources or not. -/
theorem exec_montmul_of_readX : exec (.montmul d a b) s = .next (s2.commitProduct d (redc s.ctx va vb)) := by
  rw [exec_montmul d a b hv, ha, hb]

/-- R126: MONTMUL where u reaches 2N. -/
theorem exec_montmul_fatal (hs : s.ctx.Sound s.cfg.W) (hu : 2 * s.ctx.n ≤ redcU s.ctx (va * vb)) :
    exec (.montmul d a b) s = .next { s2 with
      status := ⟨false, true, true, s.status.ovr, .invariantViolation⟩ } := by
  have hst : s2.status = s.status := (State.status_of_readX hb).trans (State.status_of_readX ha)
  rw [exec_montmul_of_readX hv ha hb, redc_eq hs, if_pos hu, ← hst]
  rfl

/-- R127, R130: MONTMUL where u stays below 2N. -/
theorem exec_montmul_completes (hs : s.ctx.Sound s.cfg.W) (hu : redcU s.ctx (va * vb) < 2 * s.ctx.n) :
    exec (.montmul d a b) s = .next { s2 with
      x := s2.x.set d.val ⟨va * vb * s.ctx.rinv % s.ctx.n, fullMask s.cfg.W⟩
      status := ⟨false, true, s.status.fatal, s.status.ovr, .none⟩ } := by
  have hcfg : s1.cfg = s.cfg := by rw [State.eq_of_readX ha]
  rw [exec_montmul_of_readX hv ha hb, redc_eq hs, if_neg (Nat.not_le.2 hu), State.commitProduct,
    State.commit_of_readX d hb, hcfg, State.status_of_readX ha]

end Montmul

/-! ### Commands in sequence -/

/-- From s to t a command has committed y to X[d] with ERR = 0; parameters, context and the other registers are
kept (R94). -/
structure State.Commits (s : State) (d : RegIdx) (y : Nat) (t : State) : Prop where
  err    : t.status.err = .none
  cfg    : t.cfg = s.cfg
  ctx    : t.ctx = s.ctx
  result : t.Holds d y
  others : ∀ {j : RegIdx} {v : Nat}, j ≠ d → s.Holds j v → t.Holds j v

section Commits
variable {s : State} {a b : RegIdx} {va vb : Nat} (hs : s.ctx.Sound s.cfg.W) (hv : s.ctx.valid = true) (d : RegIdx)
include hs

theorem State.commits_of_lt {y : Nat} (hy : y < s.ctx.n) : s.Commits d y ((s.writeX d y).complete .none) where
  err    := rfl
  cfg    := rfl
  ctx    := rfl
  result := State.holds_commit d hs hy
  others hj h := ⟨(s.reg_writeX d _ _ hj).trans h.1, h.2⟩

/-- The context stays sound through a commit. -/
theorem State.Commits.sound {t : State} {y : Nat} (h : s.Commits d y t) : t.ctx.Sound t.cfg.W := by
  rw [h.ctx, h.cfg]
  exact hs

include hv

theorem exec_tomont_commits (ha : s.Holds a va) :
    ∃ t, exec (.tomont d a) s = .next t ∧ s.Commits d (toMontgomery s.ctx va) t :=
  ⟨_, exec_tomont_of_readX d hv (State.readX_of_holds ha), State.commits_of_lt hs d (hs.toMontgomery_lt va)⟩

theorem exec_frommont_commits (ha : s.Holds a va) :
    ∃ t, exec (.frommont d a) s = .next t ∧ s.Commits d (fromMontgomery s.ctx va) t :=
  ⟨_, exec_frommont_of_readX d hv (State.readX_of_holds ha), State.commits_of_lt hs d (hs.fromMontgomery_lt va)⟩

theorem exec_montmul_commits (ha : s.Holds a va) (hb : s.Holds b vb) (hva : va < s.ctx.n) (hvb : vb < s.ctx.n) :
    ∃ t, exec (.montmul d a b) s = .next t ∧ s.Commits d (va * vb * s.ctx.rinv % s.ctx.n) t := by
  refine ⟨_, ?_, State.commits_of_lt hs d (Nat.mod_lt _ hs.n_pos)⟩
  rw [exec_montmul_of_readX hv (State.readX_of_holds ha) (State.readX_of_holds hb), redc_in_domain hs hva hvb]
  rfl

end Commits

end Sys2Proof.Machine

open Sys2Proof Sys2Proof.Machine

/-- Settles O22: operands below N keep u below 2N. -/
theorem montmulOfInRangeOperands : Obligations.MontmulOfInRangeOperands := by
  unfold Obligations.MontmulOfInRangeOperands
  intro s s1 s2 d a b va vb hinv hv ha hb hva hvb
  have hs := hinv.sound hv
  exact exec_montmul_completes hv ha hb d hs (redcU_lt hs (hs.mul_lt_of_lt hva hvb))

/-- Settles O23: the two ends of MONTMUL, told apart by u. -/
theorem montmulOfAnyOperands : Obligations.MontmulOfAnyOperands := by
  unfold Obligations.MontmulOfAnyOperands
  intro s s1 s2 d a b va vb hinv hv ha hb m u
  have hs := hinv.sound hv
  have hu : redcU s.ctx (va * vb) = u := redcU_eq_div _ _
  rw [← hu]
  exact ⟨exec_montmul_fatal hv ha hb d hs, exec_montmul_completes hv ha hb d hs⟩

/-- Settles O24: u reaches 2N only on a product of at least N * R + N, which operands below N do not have. -/
theorem montmulFatalExactlyAtTwoN : Obligations.MontmulFatalExactlyAtTwoN := by
  unfold Obligations.MontmulFatalExactlyAtTwoN
  intro s s1 s2 d a b va vb hinv hv hf ha hb m u
  have hs := hinv.sound hv
  have hu : redcU s.ctx (va * vb) = u := redcU_eq_div _ _
  rcases Nat.lt_or_ge u (2 * s.ctx.n) with hlt | hge
  · refine ⟨_, exec_montmul_completes hv ha hb d hs (hu ▸ hlt), fun hva hvb => ?_, ?_, ?_⟩
    · exact ⟨Context.mul_lt_sq hva hvb, hs.n_sq_lt, hs.redcM_mul_lt _, hs.add_redcM_mul_lt hva hvb, hlt, hf⟩
    · simp [hf, hlt]
    · simp [hf]
  · have hprod := hs.le_of_two_mul_le_redcU (hu ▸ hge)
    have hout : s.ctx.n ≤ va ∨ s.ctx.n ≤ vb := by
      by_contra hin
      have := hs.mul_lt_of_lt (a := va) (b := vb) (by omega) (by omega)
      omega
    exact ⟨_, exec_montmul_fatal hv ha hb d hs (hu ▸ hge), fun hva hvb => by omega, iff_of_true rfl hge,
      fun _ => ⟨hprod, hout⟩⟩

/-- Settles O25: the context made for an odd modulus is sound, and a sound context makes R divide t + m * N. -/
theorem redcDivisionIsExact : Obligations.RedcDivisionIsExact := by
  unfold Obligations.RedcDivisionIsExact
  intro n c hodd hc
  obtain ⟨c', hc', hn, -, hs⟩ := makeContext_of_odd hodd
  obtain rfl : c' = c := Option.some.inj (hc'.symm.trans hc)
  have hdvd := redc_divides hs
  have hmod := hs.redcM_mul_mod
  obtain ⟨-, -, -, -, -, -, hnp, -⟩ := hs
  exact ⟨hn, hnp, fun t => ⟨hmod t, Nat.mod_eq_zero_of_dvd (hdvd t)⟩⟩

/-- Settles O26: each command of the sequence commits its value and keeps the context and the operands still to be
read. -/
theorem homomorphismSequence : Obligations.HomomorphismSequence := by
  unfold Obligations.HomomorphismSequence
  intro s a b e f g va vb hinv hv ha hb hva hvb heb hef
  have hs := hinv.sound hv
  obtain ⟨s1, hx1, h1⟩ := exec_tomont_commits hs hv e ha
  have hs1 := h1.sound hs
  obtain ⟨s2, hx2, h2⟩ := exec_tomont_commits hs1 (h1.ctx ▸ hv) f (h1.others heb.symm hb)
  have hs2 := h2.sound hs1
  have hctx2 : s2.ctx = s.ctx := h2.ctx.trans h1.ctx
  have he := h2.others hef h1.result
  have hf := h2.result
  rw [h1.ctx, ← hctx2] at hf
  rw [← hctx2] at he
  obtain ⟨s3, hx3, h3⟩ := exec_montmul_commits hs2 (hctx2 ▸ hv) e he hf (hs2.toMontgomery_lt va)
    (hs2.toMontgomery_lt vb)
  rw [hs2.toMontgomery_mul] at h3
  obtain ⟨s4, hx4, h4⟩ := exec_frommont_commits (h3.sound hs2) (h3.ctx ▸ hctx2 ▸ hv) g h3.result
  rw [h3.ctx, hs2.fromMontgomery_toMontgomery, hctx2] at h4
  exact ⟨s1, s2, s3, s4, hx1, hx2, hx3, hx4, h1.err, h2.err, h3.err, h4.err, h4.result⟩
end

section
/-! PROOFS of the exceptions (spec 60_exceptions.md R144, R145): which command reports INVARIANT_VIOLATION, that a fatal
state is entered by the engine's turn alone, and the order of the errors. -/

namespace Sys2Proof.Machine

/-- R131: stage 5 rejects a product only when an operand is at or above N. -/
theorem Context.Sound.le_of_redc_eq_none {W : Nat} {c : Context} (h : c.Sound W) {a b : Nat}
    (hnone : redc c a b = none) : c.n ≤ a ∨ c.n ≤ b := by
  by_contra hin
  obtain ⟨ha, hb⟩ := not_or.1 hin
  rw [redc_in_domain h (Nat.not_le.1 ha) (Nat.not_le.1 hb)] at hnone
  cases hnone

/-- R126, R144: the only command that reports INVARIANT_VIOLATION is a MONTMUL with a valid context, whose product
stage 5 rejects. -/
theorem exec_reports_invariantViolation {i : Instr} {s t : State} (h : exec i s = .next t)
    (herr : t.status.err = .invariantViolation) :
    s.ctx.valid = true ∧ ∃ d a b, i = .montmul d a b ∧
      redc s.ctx (s.readX a).1 ((s.readX a).2.readX b).1 = none := by
  obtain ⟨-, -, rfl⟩ | ⟨r, -, -, rfl⟩ | ⟨r, c, -, -, -, rfl⟩ | ⟨-, d, y, k, -, -, rfl⟩ |
    ⟨hv, d, a, b, k, hi, hnone, -⟩ := exec_cases h
  · cases herr
  · cases herr
  · cases herr
  · cases herr
  · exact ⟨hv, d, a, b, hi, hnone⟩

/-- The turns still to come play no part in a register read. -/
theorem State.readX_setSchedule (s : State) (i : RegIdx) (turns : List Turn) :
    ({ s with schedule := turns } : State).readX i =
      ((s.readX i).1, { (s.readX i).2 with schedule := turns }) := by
  by_cases hm : s.x[i.val].missing (fullMask s.cfg.W) = 0 <;> simp [State.readX, State.readBits, State.reg, hm]

/-- R142, R144: a step that enters the fatal state is the engine's turn with a command in flight, which reports
INVARIANT_VIOLATION. -/
theorem exec_of_step_enters_fatal {s t : State} (hf : s.status.fatal = false) (h : step s = .next t)
    (ht : t.status.fatal = true) :
    s.status.busy = true ∧ ∃ i rest, decode s.cmdlatch = .cmd i ∧
      exec i { s with schedule := rest } = .next t ∧ t.status.err = .invariantViolation := by
  have hkept : t.status.fatal ≠ s.status.fatal := by simp [ht, hf]
  cases step_effect h with
  | reset rest hs => cases ht
  | quiet k rest a => exact absurd rfl hkept
  | ctrlWrite v rest hs => exact absurd rfl hkept
  | accepted v rest hs hb hf => exact absurd rfl hkept
  | overrun addr v rest hs hb haddr => exact absurd rfl hkept
  | acked v rest hs hv => exact absurd rfl hkept
  | wordWrite addr i j v rest hs hb hj hlo hhi => exact absurd rfl hkept
  | completed rest t hturn hb hengine =>
    obtain ⟨-, rfl⟩ | ⟨-, -, rfl⟩ | ⟨-, i, hi, hexec⟩ := engineTurn_cases hengine
    · exact absurd rfl hkept
    · exact absurd rfl hkept
    · obtain ⟨hfatal, -⟩ := (exec_effect hexec).reports
      exact ⟨hb, i, rest, hi, hexec, by simpa [ht, hf] using hfatal⟩

end Sys2Proof.Machine

open Sys2Proof Sys2Proof.Machine

/-- Settles O56: the step runs a command that reports INVARIANT_VIOLATION, which is a MONTMUL whose product stage 5
rejects, and under a sound context that takes an operand at or above N. -/
theorem fatalOnlyByMontmulOutOfRange : Obligations.FatalOnlyByMontmulOutOfRange := by
  unfold Obligations.FatalOnlyByMontmulOutOfRange
  intro s t hinv hf h ht
  obtain ⟨hb, i, rest, hi, hexec, herr⟩ := exec_of_step_enters_fatal hf h ht
  obtain ⟨hv, d, a, b, rfl, hnone⟩ := exec_reports_invariantViolation hexec herr
  rw [s.readX_setSchedule a, (s.readX a).2.readX_setSchedule b] at hnone
  exact ⟨d, a, b, hb, hi, hv, (hinv.sound hv).le_of_redc_eq_none hnone⟩

/-- Settles O11: each clause is the one completion that its word, context and source value leave open. -/
theorem errorPriority : Obligations.ErrorPriority := by
  unfold Obligations.ErrorPriority
  intro s t hb h
  refine ⟨fun ⟨why, hd⟩ => ?_, fun i hd => ?_⟩
  · rw [engineTurn_illegal hb hd] at h
    cases h; rfl
  · rw [engineTurn_cmd hb hd] at h
    refine ⟨fun hi hv => ?_, fun r hi heven => ?_, fun herr => ?_⟩
    · rw [exec_noContext hv hi] at h
      cases h; rfl
    · rw [hi, exec_ctxinit_even (r := r) rfl heven] at h
      cases h; rfl
    · obtain ⟨hv, d, a, b, hi, -⟩ := exec_reports_invariantViolation h herr
      exact ⟨hv, d, a, b, hi⟩
end
